-- ==== Sys2Proof/Word.lean ====
section
/-! DEFINITION. The two word types the spec computes on: the byte (R11) and the 16-bit field (R9). -/

namespace Sys2Proof

/-- A byte, "an unsigned value 0 to 255" (R11). -/
abbrev Byte := BitVec 8

/-- A 16-bit quantity: `length`, command id, `seq_type`, `ACC_LEN`, `TBL_COUNT`, `disp_len`, `tx_len` (R9). -/
abbrev Half := BitVec 16

end Sys2Proof
end

