-- ==== Sys2Proof/Config.lean ====
section
/-! DEFINITION. What one implementation fixes (R7, R8) and the values the spec leaves free (R165, U4, U6). -/

namespace Sys2Proof

/-- The parameters of one block (R7, R8): the spec gives them no values, so a statement about every
state holds for every choice of them. Log entry 1. -/
structure Params where
  /-- `CAPACITY`: bytes in the accumulator, and the largest frame SEND builds (R7). -/
  capacity : Nat
  /-- `UCTX_W`: width in bits of the user context (R8). -/
  uctxW : Nat
  /-- `HANDLER_W`: width in bits of a handler token (R8). -/
  handlerW : Nat
  /-- `TBL_AW`: width in bits of a command-table entry address (R8). -/
  tblAw : Nat
  /-- `RESULT_W`: width in bits of the transport's write result, signed (R8). -/
  resultW : Nat
  deriving DecidableEq, Repr

/-- `11 <= CAPACITY <= 65535` (R7) and every width a positive natural number (R8). -/
abbrev Params.Legal (p : Params) : Prop :=
  11 ≤ p.capacity ∧ p.capacity ≤ 65535 ∧ 0 < p.uctxW ∧ 0 < p.handlerW ∧ 0 < p.tblAw ∧ 0 < p.resultW

/-- The values of the spec's test vectors (R8's defaults; CAPACITY = 32 of D29).
DESIGN CHOICE (log entry 1): `State.reset` is a block of these parameters; the spec calls them not normative. -/
def Params.vectors : Params :=
  { capacity := 32, uctxW := 32, handlerW := 32, tblAw := 8, resultW := 32 }

/-- `wr_result`, the transport's answer to a write event for which no answer is queued: a free value,
"a free input of the SEND step, under no law" (R165, U6). Log entry 6. -/
opaque Config.freeAnswer : Nat → Int

/-- What the table memory holds at an entry address the host never wrote: "an arbitrary `(id, handler)`
pair" (U4), as one packed word (R56). Log entry 5. -/
opaque Config.freeEntryWord : Nat → Nat

end Sys2Proof
end

