-- ==== Sys2Proof/Syntax.lean ====
section
/-! DEFINITION. The instructions: one constructor per row of spec/opcode_table.json (R80, R88). -/

namespace Sys2Proof

/-- The four host operations with the operand fields of R81, and the wire frame.
`rx_n` and `payload_len` are the lengths of the byte lists: "the count field gives their length exactly" (R81). -/
inductive Instr where
  /-- INIT (R100). -/
  | init (tpValid wrPresent rdPresent : Bool) (userCtx tblBase : Nat) (tblCount : Half)
  /-- SET_TABLE (R101). -/
  | setTable (tblBase : Nat) (tblCount : Half)
  /-- RECEIVE (R120). -/
  | receive (rxBytes : List Byte)
  /-- SEND (R160); `seqType` is the two's-complement pattern of a signed 16-bit value (R81, K2). -/
  | send (cmdId seqType : Half) (payload : List Byte)
  /-- FRAME (R70): one unit of the wire format whose magic is right, as its remaining fields. `region` is the
  payload region, offsets 8 up to `8 + length`, so `length` is its size; the patterns the spec calls
  malformed (`length < 2`, a wrong checksum) are terms too, since the block has an answer to them (R77). -/
  | frame (seqType : Half) (region : List Byte) (checksum : Byte)
  deriving DecidableEq, Repr

end Sys2Proof
end

