-- ==== Sys2Proof/WellFormed.lean ====
section
/-! DEFINITION. When an instruction's operands fit the fields R81 and R70 give them. -/

namespace Sys2Proof

/-- A count field is 16 bits wide (R9, R81). -/
abbrev FitsCount (bytes : List Byte) : Prop := bytes.length < 65536

/-- Every operand fits its field: `user_ctx` in UCTX_W bits, `tbl_base` in TBL_AW bits, every byte
sequence in a 16-bit count (R81), and a frame's payload region in the 16-bit `length` (R70). -/
def Instr.wf (p : Params) : Instr → Bool
  | .init _ _ _ userCtx tblBase _ => decide (userCtx < 2 ^ p.uctxW) && decide (tblBase < 2 ^ p.tblAw)
  | .setTable tblBase _ => decide (tblBase < 2 ^ p.tblAw)
  | .receive rxBytes => decide (FitsCount rxBytes)
  | .send _ _ payload => decide (FitsCount payload)
  | .frame _ region _ => decide (FitsCount region)

end Sys2Proof
end

