-- ==== Sys2Proof/Decode.lean ====
section
/-! DEFINITION. Byte order, the constants of R10, the decoder of the command port and of wire frames, and
the encoder written from the same tables (R70, R80, R81, R88). -/

namespace Sys2Proof

/-! ### Byte order (R12, R51) -/

/-- `le16(lo, hi)`: the unsigned 16-bit value of two bytes, low byte first (R12). -/
def le16 (lo hi : Byte) : Half := hi ++ lo

/-- `lo8(v) = v mod 256` (R12). -/
def lo8 (v : Half) : Byte := v.setWidth 8

/-- `hi8(v) = (v div 256) mod 256` (R12). -/
def hi8 (v : Half) : Byte := (v >>> 8).setWidth 8

/-- A 16-bit field in stream order: low byte at the lower offset (R51). -/
def halfBytes (v : Half) : List Byte := [lo8 v, hi8 v]

/-- A number in `k` bytes, low byte first. -/
def natBytes : Nat → Nat → List Byte
  | 0, _ => []
  | k + 1, n => BitVec.ofNat 8 n :: natBytes k (n / 256)

/-- The number whose bytes these are, low byte first. -/
def natOfBytes : List Byte → Nat
  | [] => 0
  | b :: bs => b.toNat + 256 * natOfBytes bs

/-- The bitwise exclusive-or of all bytes; `xor8([]) = 0` (R12). -/
def xor8 (bytes : List Byte) : Byte := bytes.foldl (· ^^^ ·) 0

/-! ### Named constants (R10) -/

/-- `MAGIC`: "FMTP" in string order (R10, R52). -/
def magic : List Byte := [0x46, 0x4D, 0x54, 0x50]

/-- `MIN_BUF`: fewest buffered bytes at which the decoder looks at the header (R10). -/
def minBuf : Nat := 10

/-- `HDR_LEN`: magic 4, `seq_type` 2, `length` 2 (R10). -/
def hdrLen : Nat := 8

/-- `OVERHEAD`: frame bytes that are not caller payload (R10). -/
def overhead : Nat := 11

/-- `MIN_LENGTH`: smallest legal value of the `length` field (R10). -/
def minLength : Nat := 2

/-! ### Operation codes (R80) -/

def opInit : BitVec 2 := 0b00
def opSetTable : BitVec 2 := 0b01
def opReceive : BitVec 2 := 0b10
def opSend : BitVec 2 := 0b11

/-- The first byte of a request: `op` in bits 1:0, bits 7:2 zero.
DESIGN CHOICE (log entry 2): R81 leaves the packing of a request open. -/
def opByte (op : BitVec 2) : Byte := op.setWidth 8

/-- INIT's three one-bit operands in one byte: `tp_valid`, `wr_present`, `rd_present` in bits 0, 1, 2 (log entry 2). -/
def flagByte (tpValid wrPresent rdPresent : Bool) : Byte :=
  (BitVec.ofBool false ++ BitVec.ofBool rdPresent ++ BitVec.ofBool wrPresent ++ BitVec.ofBool tpValid).setWidth 8

/-- How many bytes a field of `w` bits takes in a request (log entry 2). -/
def fieldBytes (w : Nat) : Nat := (w + 7) / 8

/-! ### The decoder -/

/-- Why a byte sequence is no request. The spec has no illegal operation code (R80); these arise from the
packing the model chose (log entry 2), so stopping on one is safe. -/
inductive DecodeError where
  /-- No byte at all. -/
  | empty
  /-- The first byte is no operation byte and the first four are not the magic. -/
  | unknownRequest
  /-- The sequence ends inside a field. -/
  | truncated
  /-- A padding bit of the operation byte's flags is set. -/
  | reservedBits
  /-- A field holds a value wider than its width in bits. -/
  | valueTooWide
  /-- Bytes are left over after the last field. -/
  | trailing
  deriving DecidableEq, Repr

/-- What a field reader answers: its value and the bytes after it. -/
abbrev Parsed (α : Type) := Except DecodeError (α × List Byte)

def takeByte : List Byte → Parsed Byte
  | b :: rest => .ok (b, rest)
  | [] => .error .truncated

def takeHalf : List Byte → Parsed Half
  | lo :: hi :: rest => .ok (le16 lo hi, rest)
  | _ => .error .truncated

def takeBytes (n : Nat) (bytes : List Byte) : Parsed (List Byte) :=
  if n ≤ bytes.length then .ok (bytes.take n, bytes.drop n) else .error .truncated

/-- Read one part, then the next from the bytes after it. -/
def chain {α β : Type} (x : Parsed α) (next : α → List Byte → Parsed β) : Parsed β :=
  match x with
  | .ok (a, rest) => next a rest
  | .error e => .error e

/-- A field of `w` bits, low byte first, unused high bits zero. -/
def takeField (w : Nat) (bytes : List Byte) : Parsed Nat :=
  chain (takeBytes (fieldBytes w) bytes) fun field rest =>
    if natOfBytes field < 2 ^ w then .ok (natOfBytes field, rest) else .error .valueTooWide

/-- A 16-bit count and that many bytes (R81). -/
def takeCounted (bytes : List Byte) : Parsed (List Byte) :=
  chain (takeHalf bytes) fun n rest => takeBytes n.toNat rest

/-- INIT's operands (R81). -/
def decodeInit (p : Params) (bytes : List Byte) : Parsed Instr :=
  chain (takeByte bytes) fun flags r1 =>
    if flags.toNat < 8 then
      chain (takeField p.uctxW r1) fun userCtx r2 =>
      chain (takeField p.tblAw r2) fun tblBase r3 =>
      chain (takeHalf r3) fun tblCount r4 =>
      .ok (.init (flags.getLsbD 0) (flags.getLsbD 1) (flags.getLsbD 2) userCtx tblBase tblCount, r4)
    else .error .reservedBits

/-- SET_TABLE's operands (R81). -/
def decodeSetTable (p : Params) (bytes : List Byte) : Parsed Instr :=
  chain (takeField p.tblAw bytes) fun tblBase r1 =>
  chain (takeHalf r1) fun tblCount r2 =>
  .ok (.setTable tblBase tblCount, r2)

/-- RECEIVE's operands (R81). -/
def decodeReceive (bytes : List Byte) : Parsed Instr :=
  chain (takeCounted bytes) fun rxBytes r1 => .ok (.receive rxBytes, r1)

/-- SEND's operands (R81). -/
def decodeSend (bytes : List Byte) : Parsed Instr :=
  chain (takeHalf bytes) fun cmdId r1 =>
  chain (takeHalf r1) fun seqType r2 =>
  chain (takeCounted r2) fun payload r3 =>
  .ok (.send cmdId seqType payload, r3)

/-- A wire frame after its magic: "the frame ends after `9 + length` bytes" (R70, R74). -/
def decodeWireFrame (bytes : List Byte) : Parsed Instr :=
  chain (takeHalf bytes) fun seqType r1 =>
  chain (takeCounted r1) fun region r2 =>
  chain (takeByte r2) fun checksum r3 =>
  .ok (.frame seqType region checksum, r3)

/-- The first request of a byte sequence and the bytes after it. A request begins with its operation byte
(R80); a wire frame begins with the magic (R88), whose first byte is no operation byte. -/
def decodeFirst (p : Params) : List Byte → Parsed Instr
  | [] => .error .empty
  | b :: rest =>
    if b = opByte opInit then decodeInit p rest
    else if b = opByte opSetTable then decodeSetTable p rest
    else if b = opByte opReceive then decodeReceive rest
    else if b = opByte opSend then decodeSend rest
    else if (b :: rest).take 4 = magic then decodeWireFrame ((b :: rest).drop 4)
    else .error .unknownRequest

/-- The one request a byte sequence holds; bytes left over are rejected by name. -/
def decode (p : Params) (bytes : List Byte) : Except DecodeError Instr :=
  match decodeFirst p bytes with
  | .ok (i, []) => .ok i
  | .ok (_, _ :: _) => .error .trailing
  | .error e => .error e

/-! ### The encoder -/

/-- A byte sequence with its 16-bit count before it (R81). -/
def countedBytes (bytes : List Byte) : List Byte := halfBytes (BitVec.ofNat 16 bytes.length) ++ bytes

/-- The bytes of a wire frame from its fields (R70). -/
def wireBytes (seqType : Half) (region : List Byte) (checksum : Byte) : List Byte :=
  magic ++ halfBytes seqType ++ countedBytes region ++ [checksum]

/-- The byte sequence that stands for an instruction: the operation byte and the fields in R81's order, or
the wire bytes of a frame (R70). -/
def encode (p : Params) : Instr → List Byte
  | .init tpValid wrPresent rdPresent userCtx tblBase tblCount =>
    opByte opInit :: flagByte tpValid wrPresent rdPresent ::
      (natBytes (fieldBytes p.uctxW) userCtx ++ natBytes (fieldBytes p.tblAw) tblBase ++ halfBytes tblCount)
  | .setTable tblBase tblCount =>
    opByte opSetTable :: (natBytes (fieldBytes p.tblAw) tblBase ++ halfBytes tblCount)
  | .receive rxBytes => opByte opReceive :: countedBytes rxBytes
  | .send cmdId seqType payload =>
    opByte opSend :: (halfBytes cmdId ++ halfBytes seqType ++ countedBytes payload)
  | .frame seqType region checksum => wireBytes seqType region checksum

/-! ### Words of the opcode table -/

/-- A table word as bytes. The FRAME row's 32 bits are written "in stream order (the leftmost two digits are
the byte at offset 0)" (R88); any other word is laid out low byte first. -/
def wordBytes (nbits w : Nat) : List Byte :=
  let bytes := natBytes (nbits / 8) w
  if nbits = 32 then bytes.reverse else bytes

/-- The request whose table bits are `w` and whose other bits are all zero: the word's bytes, then as many
zero bytes as the request needs. -/
def tableBytes (p : Params) (nbits w : Nat) : List Byte :=
  let padded := wordBytes nbits w ++ List.replicate (16 + fieldBytes p.uctxW + fieldBytes p.tblAw) 0
  match decodeFirst p padded with
  | .ok (_, rest) => padded.take (padded.length - rest.length)
  | .error _ => padded

/-- The instruction the decoder reads from a table word, for a block of the test vectors' parameters. -/
def decodeTableWord (nbits w : Nat) : Option Instr :=
  (decode Params.vectors (tableBytes Params.vectors nbits w)).toOption

end Sys2Proof
end

