-- ==== Sys2Proof/Machine/State.lean ====
section
/-! DEFINITION. The block's state (R20) with the host's side of its port, the outputs of an operation, the
ways a step can stop, and the state after hardware reset (R36, R210). -/

namespace Sys2Proof.Machine

/-- The accumulator's bytes by offset, in the canonical form `Memory.wf` (Machine/Ops.lean). -/
abbrev Memory := List Host.Cell

/-- A command-table entry: `id` 16 bits, `handler` a token of HANDLER_W bits the block never interprets (R56). -/
structure TblEntry where
  id : Half
  handler : Nat
  deriving DecidableEq, Repr

/-- The table memory TBL: the entries the host has written, by strictly rising entry address (R50). -/
abbrev Table := List (Nat × TblEntry)

/-- The dispatch event that stands for invoking a handler (R84, R153). -/
structure DispatchEvent where
  handler : Nat
  id : Half
  payload : List Byte
  len : Half
  uctx : Nat
  deriving DecidableEq, Repr

/-- The write event that stands for calling the transport's write function (R85, R166). -/
structure WriteEvent where
  bytes : List Byte
  len : Half
  uctx : Nat
  deriving DecidableEq, Repr

/-- `rx_status` (R82). Its code 7 is "never produced" and has no constructor (U9). -/
inductive RxStatus where
  | ignored | wait | frame | overflow | badMagic | badLength | badChecksum
  deriving DecidableEq, Repr

/-- `s_status` (R83). Its code 3 is "never produced" and has no constructor (U9). -/
inductive SendStatus where
  | sent | tooLarge | noTransport
  deriving DecidableEq, Repr

/-- What one operation shows the host: its response, and the event that accompanies it. -/
inductive Output where
  /-- INIT and SET_TABLE "answer with completion only" (R82). -/
  | completed
  /-- RECEIVE's response and "at most one dispatch event" (R82, R136). -/
  | received (status : RxStatus) (event : Option DispatchEvent)
  /-- SEND's response, and its write event when one was produced (R83, R166). -/
  | sent (status : SendStatus) (result : Int) (event : Option WriteEvent)
  deriving DecidableEq, Repr

/-- The errors of the block (R180). -/
inductive Cause where
  | bufferOverflow | badMagic | badLength | badChecksum | sendTooLarge | transportUnset
  deriving DecidableEq, Repr

/-- What the world outside does to the block, one at a time (R58, R210, R61, R60). Log entry 3. -/
inductive HostAction where
  /-- One request at the command port, or one frame on the wire, as bytes (R80, R70). -/
  | operation (bytes : List Byte)
  /-- Hardware reset, which "may be applied at any time" (R210). -/
  | reset
  /-- A host write to the table memory between two operations (R61 b), as one word in the layout of R56. -/
  | writeTable (addr word : Nat)
  /-- Two operations presented so that they overlap in time (R60, R214). -/
  | overlap (first second : List Byte)
  deriving DecidableEq, Repr

/-- The reasons a step stops with a fault. -/
inductive Fault where
  /-- Raised by a host write to an entry address outside `0 .. 2^TBL_AW - 1`, which TBL does not have (R50).
  Safe: the model stops. -/
  | noSuchTableEntry (addr : Nat)
  deriving DecidableEq, Repr

/-- The reasons a step is refused. -/
inductive Refusal where
  /-- Raised by `exec` for an instruction that has no meaning yet. Safe: the model stops. -/
  | notModelled (mnemonic : String)
  /-- Raised by `step` when the bytes presented are no request and no frame (log entry 2). Safe: the model stops. -/
  | badRequest (why : DecodeError)
  /-- Raised by `step` for overlapped operations, to which "a model gives ... no meaning: it refuses them"
  (R60, U1). Safe: the model stops. -/
  | overlappedOperations
  deriving DecidableEq, Repr

/-- One block: the seven items of R20, the host-owned table memory (R50), and the model's own fields for
what stands at its boundary. -/
structure State where
  /-- The instance's parameters (R7, R8); no step changes them. Log entry 1. -/
  params : Params
  /-- `ACC[0 .. CAPACITY-1]` (R21). -/
  acc : Memory
  /-- `ACC_LEN`, 16 bits unsigned (R22). -/
  accLen : Half
  /-- `TP_WR` (R32). -/
  tpWr : Bool
  /-- `TP_RD`, stored and read by no rule (R32). -/
  tpRd : Bool
  /-- `UCTX`, UCTX_W bits (R33). -/
  uctx : Nat
  /-- `TBL_BASE`, TBL_AW bits (R34). -/
  tblBase : Nat
  /-- `TBL_COUNT`, 16 bits unsigned (R34). -/
  tblCount : Half
  /-- TBL, the host's memory; the block only reads it (R50). -/
  tbl : Table
  /-- Model's own: what the host does next, oldest first. Log entry 3. -/
  inbox : List HostAction
  /-- Model's own: the transport's answers to come, oldest first (R165). Log entry 6. -/
  transport : List Int
  /-- Model's own: how many free answers have been drawn (R165). Log entry 6. -/
  draws : Nat
  /-- Model's own: the outputs so far, "in operation order" (R225). Log entry 4. -/
  trace : List Output
  deriving DecidableEq, Repr

/-- The outcome of a step of this machine. -/
abbrev Outcome := Host.Outcome State Fault Refusal

/-- The block after hardware reset (R36, R210), with an empty inbox and nothing written to TBL.
The bytes of ACC are "unspecified (unobservable)" there; log entry 7 names the model's. -/
def State.reset : State :=
  { params := Params.vectors
    acc := []
    accLen := 0
    tpWr := false
    tpRd := false
    uctx := 0
    tblBase := 0
    tblCount := 0
    tbl := []
    inbox := []
    transport := []
    draws := 0
    trace := [] }

end Sys2Proof.Machine
end

