-- ==== Sys2Proof/Machine/Operands.lean ====
section
/-! DEFINITION. The fields of a frame as read from a byte sequence that holds it from offset 0 (R71). -/

namespace Sys2Proof.Machine

/-- The byte at an offset of a sequence (R11); offsets past its end are read by no rule. -/
def byteAt (f : List Byte) (i : Nat) : Byte := f.getD i 0

/-- The two bytes at offsets `i` and `i + 1` as one 16-bit value (R51). -/
def halfAt (f : List Byte) (i : Nat) : Half := le16 (byteAt f i) (byteAt f (i + 1))

/-- `seq_type = sext_16(le16(f[4], f[5]))` (R71). -/
def frameSeqType (f : List Byte) : Int := (halfAt f 4).toInt

/-- `length = le16(f[6], f[7])` (R71). -/
def frameLength (f : List Byte) : Nat := (halfAt f 6).toNat

/-- `command_id = le16(f[8], f[9])` (R71). -/
def frameCommandId (f : List Byte) : Half := halfAt f 8

/-- `payload = f[10 .. 8 + length)` (R71). -/
def framePayload (f : List Byte) : List Byte := (f.drop 10).take (frameLength f - 2)

/-- `checksum = f[8 + length]` (R71). -/
def frameChecksum (f : List Byte) : Byte := byteAt f (hdrLen + frameLength f)

/-- `xor8(f[0 .. 8 + length))`, what the checksum of a good frame equals (R73). -/
def frameXor (f : List Byte) : Byte := xor8 (f.take (hdrLen + frameLength f))

end Sys2Proof.Machine
end

