-- ==== Sys2Proof/Machine/Flags.lean ====
section
/-! DEFINITION. "The block has no status flags, condition codes or sticky error bits" (R25): what it has instead
are the codes of its responses (R82, R83), the response of each error (R180), and the receive phase, which
is derived and not stored (R29). -/

namespace Sys2Proof.Machine

/-- `rx_status` as its 3-bit code (R82). -/
def RxStatus.code : RxStatus → BitVec 3
  | .ignored => 0
  | .wait => 1
  | .frame => 2
  | .overflow => 3
  | .badMagic => 4
  | .badLength => 5
  | .badChecksum => 6

/-- `s_status` as its 2-bit code (R83). -/
def SendStatus.code : SendStatus → BitVec 2
  | .sent => 0
  | .tooLarge => 1
  | .noTransport => 2

/-- The response that reports an error (R180): a code and nothing beyond it (R181), with no event (R191, R192). -/
def Cause.response : Cause → Output
  | .bufferOverflow => .received .overflow none
  | .badMagic => .received .badMagic none
  | .badLength => .received .badLength none
  | .badChecksum => .received .badChecksum none
  | .sendTooLarge => .sent .tooLarge 0 none
  | .transportUnset => .sent .noTransport 0 none

/-- Whether an error clears the accumulator: every receive-side error does (R191), no send-side error does (R192). -/
def Cause.clearsAcc : Cause → Bool
  | .bufferOverflow => true
  | .badMagic => true
  | .badLength => true
  | .badChecksum => true
  | .sendTooLarge => false
  | .transportUnset => false

/-- The phases of the receive state machine (R29). -/
inductive RxPhase where
  | empty | header | body
  deriving DecidableEq, Repr

/-- `rx_phase`, a function of ACC_LEN (R29). -/
def State.rxPhase (s : State) : RxPhase :=
  if s.accLen.toNat = 0 then .empty else if s.accLen.toNat < minBuf then .header else .body

end Sys2Proof.Machine
end

