-- ==== Sys2Proof/Machine/Ops.lean ====
section
/-! DEFINITION. The named operations over memory and registers: the accumulator's bytes, the table memory, the
outputs, taking an error (R191, R192), hardware reset (R210) and the host's writes to TBL (R61). -/

namespace Sys2Proof.Machine

/-! ### ACC -/

/-- What an offset of ACC reads as when the memory lists nothing there: the value INIT stores (R100).
DESIGN CHOICE (log entry 7) for the bytes of ACC after hardware reset, which the spec leaves unspecified. -/
def Memory.blank : Byte := 0

/-- The canonical form: offsets strictly rising, no entry equal to what an unlisted offset reads as. -/
abbrev Memory.wf (m : Memory) : Prop :=
  m.Pairwise (fun a b => a.1 < b.1) ∧ ∀ c ∈ m, c.2 ≠ Memory.blank

/-- `ACC[a]` (R12). -/
def Memory.read : Memory → Nat → Byte
  | [], _ => Memory.blank
  | (k, v) :: m, a => if k = a then v else Memory.read m a

/-- `ACC[a] <- v` (R12), keeping the canonical form. -/
def Memory.write : Memory → Nat → Byte → Memory
  | [], a, v => if v = Memory.blank then [] else [(a, v)]
  | (k, w) :: m, a, v =>
    if a < k then (if v = Memory.blank then (k, w) :: m else (a, v) :: (k, w) :: m)
    else if a = k then (if v = Memory.blank then m else (a, v) :: m)
    else (k, w) :: Memory.write m a v

/-- `MemRead(ACC, off, n)`: lowest offset first (R12). -/
def Memory.readBytes (m : Memory) : Nat → Nat → List Byte
  | _, 0 => []
  | off, n + 1 => Memory.read m off :: Memory.readBytes m (off + 1) n

/-- `MemWrite(ACC, off, n, s)`: `ACC[off+k] <- s[k]` (R12). -/
def Memory.writeBytes : Memory → Nat → List Byte → Memory
  | m, _, [] => m
  | m, off, b :: bs => Memory.writeBytes (Memory.write m off b) (off + 1) bs

/-- Every byte of ACC zero, as INIT leaves it (R100). -/
def Memory.zeroed : Memory := []

/-- The bytes received and not yet consumed, `ACC[0 .. ACC_LEN)` in arrival order (R21). -/
def State.buffered (s : State) : List Byte := Memory.readBytes s.acc 0 s.accLen.toNat

/-- Clearing the accumulator "means `ACC_LEN <- 0` and nothing else" (R24). -/
def State.clearAcc (s : State) : State := { s with accLen := 0 }

/-! ### TBL -/

/-- Entry addresses strictly rising. -/
abbrev Table.wf (t : Table) : Prop := t.Pairwise (fun a b => a.1 < b.1)

/-- The entry the host wrote at an address, if it wrote one. -/
def Table.read : Table → Nat → Option TblEntry
  | [], _ => none
  | (k, e) :: t, a => if k = a then some e else Table.read t a

/-- The table with an entry written, keeping its addresses strictly rising. -/
def Table.write : Table → Nat → TblEntry → Table
  | [], a, e => [(a, e)]
  | (k, d) :: t, a, e =>
    if a < k then (a, e) :: (k, d) :: t
    else if a = k then (a, e) :: t
    else (k, d) :: Table.write t a e

/-- An entry from its word: `handler` in bits `[HANDLER_W+15:16]`, `id` in bits `[15:0]` (R56). -/
def entryOfWord (p : Params) (word : Nat) : TblEntry :=
  { id := BitVec.ofNat 16 word, handler := word / 65536 % 2 ^ p.handlerW }

/-- `MemRead(TBL, a, 1)` (R12, R56): what the host wrote at `a`, or the free value of an entry it never wrote (U4). -/
def State.entryAt (s : State) (a : Nat) : TblEntry :=
  (Table.read s.tbl a).getD (entryOfWord s.params (Config.freeEntryWord a))

/-- Entry `i` of the active table: the entry at `(TBL_BASE + i) mod 2^TBL_AW` (R57). -/
def State.activeEntry (s : State) (i : Nat) : TblEntry :=
  s.entryAt ((s.tblBase + i) % 2 ^ s.params.tblAw)

/-- `TBL_BASE` and `TBL_COUNT` replaced together (R34). -/
def State.installTable (tblBase : Nat) (tblCount : Half) (s : State) : State :=
  { s with tblBase := tblBase, tblCount := tblCount }

/-! ### Outputs and errors -/

/-- Produce an operation's output. -/
def State.emit (o : Output) (s : State) : State := { s with trace := s.trace ++ [o] }

/-- `raise <cause>`: the one error entry, receive side (R191) and send side (R192). There is no return from
it: "nothing is entered" (R195), and the next operation is taken as usual (R193). -/
def State.raise (c : Cause) (s : State) : State :=
  State.emit c.response (if c.clearsAcc then s.clearAcc else s)

/-! ### What stands outside the block -/

/-- `wr_result`: the queued answer of the transport, or a free value of RESULT_W bits signed (R165). -/
def State.answer (s : State) : Int :=
  match s.transport with
  | r :: _ => r
  | [] => (Config.freeAnswer s.draws).bmod (2 ^ s.params.resultW)

/-- The answer has been given: the next write event gets another. -/
def State.nextAnswer (s : State) : State :=
  match s.transport with
  | _ :: rest => { s with transport := rest }
  | [] => { s with draws := s.draws + 1 }

/-- Hardware reset (R210): the registers of R36. TBL is the host's and stays (R50). -/
def State.hardwareReset (s : State) : State :=
  { s with acc := Memory.zeroed, accLen := 0, tpWr := false, tpRd := false, uctx := 0, tblBase := 0, tblCount := 0 }

/-- A host write to entry address `a` of TBL between two operations (R61 b). -/
def State.hostWriteTable (a word : Nat) (s : State) : Outcome :=
  if a < 2 ^ s.params.tblAw then
    .next { s with tbl := Table.write s.tbl a (entryOfWord s.params word) }
  else .fault (.noSuchTableEntry a)

/-- What the host does next, and the state with that action taken from the inbox. -/
def State.nextAction (s : State) : Option (HostAction × State) :=
  match s.inbox with
  | [] => none
  | a :: rest => some (a, { s with inbox := rest })

end Sys2Proof.Machine
end

