-- ==== Sys2Proof/Machine/Context.lean ====
section
/-! DEFINITION. The context operations INIT and SET_TABLE (spec/40_context_ops.md). -/

namespace Sys2Proof.Machine

/-- INIT (R100). With `tp_valid = 0` it "changes nothing at all" and completes (R103). -/
def execInit (tpValid wrPresent rdPresent : Bool) (userCtx tblBase : Nat) (tblCount : Half) (s : State) : Outcome :=
  if tpValid then
    .next (State.emit .completed (State.installTable tblBase tblCount
      { s with acc := Memory.zeroed, accLen := 0, tpWr := wrPresent, tpRd := rdPresent, uctx := userCtx }))
  else .next (State.emit .completed s)

/-- SET_TABLE (R101). -/
def execSetTable (tblBase : Nat) (tblCount : Half) (s : State) : Outcome :=
  .next (State.emit .completed (State.installTable tblBase tblCount s))

end Sys2Proof.Machine
end

