-- ==== Sys2Proof/Machine/Receive.lean ====
section
/-! DEFINITION. RECEIVE with its procedures APPEND, DECODE and DISPATCH (spec/41_receive.md, spec/42_dispatch.md). -/

namespace Sys2Proof.Machine

/-- DISPATCH's linear search over `n` entries from entry `i` on: the first whose id matches (R150, R151). -/
def findEntry (s : State) (id : Half) : Nat → Nat → Option TblEntry
  | _, 0 => none
  | i, n + 1 =>
    if (s.activeEntry i).id = id then some (s.activeEntry i) else findEntry s id (i + 1) n

/-- DISPATCH (R150): the dispatch event of the first matching entry (R153), none when no entry matches (R152).
It changes no register and no memory. -/
def dispatch (id : Half) (payload : List Byte) (plen : Half) (userCtx : Nat) (s : State) : Option DispatchEvent :=
  (findEntry s id 0 s.tblCount.toNat).map fun e =>
    { handler := e.handler, id := id, payload := payload, len := plen, uctx := userCtx }

/-- The store of an APPEND that fits (R121): the bytes at the tail, `ACC_LEN <- ACC_LEN + n`. -/
def appendFits (rxBytes : List Byte) (s : State) : State :=
  { s with
    acc := Memory.writeBytes s.acc s.accLen.toNat rxBytes
    accLen := BitVec.ofNat 16 (s.accLen.toNat + rxBytes.length) }

/-- The extraction of DECODE's steps 7 and 8 (R129, R130): dispatch first, clear second. -/
def extract (f : List Byte) (s : State) : State :=
  let event := dispatch (frameCommandId f) (framePayload f) (BitVec.ofNat 16 (frameLength f - 2)) s.uctx s
  State.emit (.received .frame event) s.clearAcc

/-- DECODE (R122) on the bytes `f = ACC[0 .. ACC_LEN)`, its checks in the order of R190; every byte DECODE reads is
one of these (R21). `seq_type` is read and used by nothing (R125), so the read is left out. -/
def decodeBuffer (f : List Byte) (s : State) : State :=
  if s.accLen.toNat < minBuf then State.emit (.received .wait none) s
  else if f.take 4 ≠ magic then State.raise .badMagic s
  else if frameLength f < minLength then State.raise .badLength s
  else if s.accLen.toNat < hdrLen + frameLength f + 1 then State.emit (.received .wait none) s
  else if frameXor f ≠ frameChecksum f then State.raise .badChecksum s
  else extract f s

/-- DECODE, which always parses from offset 0 (R28). -/
def runDecode (s : State) : State := decodeBuffer s.buffered s

/-- RECEIVE's effect for the bytes of one operation (R120): nothing for no bytes (R132), else APPEND (R121)
and, if the bytes fit, DECODE (R122). -/
def feed (rxBytes : List Byte) (s : State) : State :=
  if rxBytes.length = 0 then State.emit (.received .ignored none) s
  else if s.accLen.toNat + rxBytes.length > s.params.capacity then State.raise .bufferOverflow s
  else runDecode (appendFits rxBytes s)

/-- RECEIVE (R120). -/
def execReceive (rxBytes : List Byte) (s : State) : Outcome := .next (feed rxBytes s)

end Sys2Proof.Machine
end

