-- ==== Sys2Proof/Machine/Send.lean ====
section
/-! DEFINITION. SEND with its procedure ENCODE (spec/43_send.md). -/

namespace Sys2Proof.Machine

/-- The bytes a frame's checksum covers: header and payload region (R71, R73). -/
def frameBody (cmdId seqType : Half) (payload : List Byte) : List Byte :=
  magic ++ halfBytes seqType ++ halfBytes (BitVec.ofNat 16 (payload.length + 2)) ++ halfBytes cmdId ++ payload

/-- ENCODE (R161): "a pure function of its three operands". -/
def encodeFrame (cmdId seqType : Half) (payload : List Byte) : List Byte :=
  frameBody cmdId seqType payload ++ [xor8 (frameBody cmdId seqType payload)]

/-- The write event of an accepted SEND (R166). -/
def writeEvent (cmdId seqType : Half) (payload : List Byte) (s : State) : WriteEvent :=
  { bytes := encodeFrame cmdId seqType payload
    len := BitVec.ofNat 16 (payload.length + overhead)
    uctx := s.uctx }

/-- SEND (R160): the size check (R162), then the transport check (R163, R164), then the hand-off (R166) with the
transport's answer returned verbatim (R165). -/
def execSend (cmdId seqType : Half) (payload : List Byte) (s : State) : Outcome :=
  if payload.length + overhead > s.params.capacity then .next (State.raise .sendTooLarge s)
  else if s.tpWr = false then .next (State.raise .transportUnset s)
  else .next (State.emit (.sent .sent s.answer (some (writeEvent cmdId seqType payload s))) s.nextAnswer)

end Sys2Proof.Machine
end

