-- ==== Sys2Proof/Machine/Wire.lean ====
section
/-! DEFINITION. FRAME: one unit of the wire format arriving at the block (R70, R122). -/

namespace Sys2Proof.Machine

/-- The most bytes one RECEIVE carries: `rx_n` is 16 bits, "number of bytes fed, 0 to 65535" (R9, R81). -/
def maxRxN : Nat := 65535

/-- A frame's bytes as the RECEIVEs that bring them, each with a count of 16 bits (R9, R81): one RECEIVE where one can
carry them all, else a first RECEIVE of 65535 bytes and a second of the rest, the earlier bytes first (R65).
DESIGN CHOICE (log entry 8): the spec gives the frame no operation, so neither how many RECEIVEs bring it nor
where they cut it; a frame needs a second one only when its region has 65527 bytes or more. -/
def deliver (bytes : List Byte) (s : State) : State :=
  if bytes.length ≤ maxRxN then feed bytes s else feed (bytes.drop maxRxN) (feed (bytes.take maxRxN) s)

/-- FRAME: the frame's bytes, "sent and received first" byte first (R65), reach the block the only way bytes do,
as the byte stream of a RECEIVE (R63): APPEND, then DECODE (R122).
DESIGN CHOICE (log entry 8): the table gives the frame a row and the spec gives it no operation of its own; a frame
of 65536 to 65544 bytes, more than `rx_n` can count, is two RECEIVEs and so gives two responses. -/
def execFrame (seqType : Half) (region : List Byte) (checksum : Byte) (s : State) : Outcome :=
  .next (deliver (wireBytes seqType region checksum) s)

end Sys2Proof.Machine
end

