-- ==== Sys2Proof/Machine/Dispatch.lean ====
section
/-! DEFINITION. One arm per instruction. -/

namespace Sys2Proof.Machine

def exec (i : Instr) (s : State) : Host.Outcome State Fault Refusal :=
  match i with
  | .init tpValid wrPresent rdPresent userCtx tblBase tblCount => Sys2Proof.Machine.execInit tpValid wrPresent rdPresent userCtx tblBase tblCount s
  | .setTable tblBase tblCount => Sys2Proof.Machine.execSetTable tblBase tblCount s
  | .receive rxBytes => Sys2Proof.Machine.execReceive rxBytes s
  | .send cmdId seqType payload => Sys2Proof.Machine.execSend cmdId seqType payload s
  | .frame seqType region checksum => Sys2Proof.Machine.execFrame seqType region checksum s

end Sys2Proof.Machine
end

