-- ==== Sys2Proof/Machine/Step.lean ====
section
/-! DEFINITION. One step: the host's next action, as one indivisible step (R6, R58). -/

namespace Sys2Proof.Machine

/-- One step. With nothing asked of it the block "is idle and keeps all its state" (R198). -/
def step (s : State) : Host.Outcome State Fault Refusal :=
  match s.nextAction with
  | none => .next s
  | some (.operation bytes, t) =>
    match decode t.params bytes with
    | .ok i => exec i t
    | .error e => .refused (.badRequest e)
  | some (.reset, t) => .next t.hardwareReset
  | some (.writeTable a word, t) => t.hostWriteTable a word
  | some (.overlap _ _, _) => .refused .overlappedOperations

/-- The state in which the host presents, before anything else, the request whose table bits are `w` and whose
other bits are zero. Log entry 3. -/
def State.withFetchWord (s : State) (nbits w : Nat) : State :=
  { s with inbox := .operation (tableBytes s.params nbits w) :: s.inbox }

end Sys2Proof.Machine
end

