-- ==== Sys2Proof/Safety.lean ====
section
/-! DEFINITION. What the claims are stated in: the invariant of every reachable state (R23, R30 and the widths of
R20), when bytes fit, what a dispatch must be (R151, R153), which states the host cannot tell apart (R21), and
runs of RECEIVE (R135, R225). -/

namespace Sys2Proof.Machine

/-- R30: "either `ACC_LEN < 10`, or all of: `ACC[0..4) = MAGIC`, `le16(ACC[6], ACC[7]) >= 2`, and
`10 <= ACC_LEN < 9 + le16(ACC[6], ACC[7])`". -/
abbrev State.WaitsForAFrame (s : State) : Prop :=
  s.accLen.toNat < 10 ∨
    (s.buffered.take 4 = magic ∧ 2 ≤ frameLength s.buffered ∧
      10 ≤ s.accLen.toNat ∧ s.accLen.toNat < 9 + frameLength s.buffered)

/-- A value of `w` bits, signed. -/
abbrev FitsSigned (w : Nat) (r : Int) : Prop := -(2 ^ w : Int) ≤ 2 * r ∧ 2 * r < 2 ^ w

/-- Every register holds a value of its width (R20), TBL only entries that exist (R50, R56), and the transport's
answers are of RESULT_W bits signed (R165). -/
abbrev State.WidthsHold (s : State) : Prop :=
  s.uctx < 2 ^ s.params.uctxW ∧ s.tblBase < 2 ^ s.params.tblAw ∧
    (∀ x ∈ s.tbl, x.1 < 2 ^ s.params.tblAw ∧ x.2.handler < 2 ^ s.params.handlerW) ∧
    ∀ r ∈ s.transport, FitsSigned s.params.resultW r

/-- The fields of an output have the widths of R83 to R85, and its length fields count its bytes without wrap. -/
def Output.Fits (p : Params) : Output → Prop
  | .completed => True
  | .received _ none => True
  | .received _ (some e) =>
    e.handler < 2 ^ p.handlerW ∧ e.uctx < 2 ^ p.uctxW ∧ e.len.toNat = e.payload.length
  | .sent _ result none => FitsSigned p.resultW result
  | .sent _ result (some e) =>
    FitsSigned p.resultW result ∧ e.uctx < 2 ^ p.uctxW ∧ e.len.toNat = e.bytes.length

/-- The invariant between operations: legal parameters (R7, R8), ACC in canonical form and within CAPACITY (R21),
`ACC_LEN <= CAPACITY` (R23), R30, the widths, and TBL in canonical form. -/
abbrev State.Inv (s : State) : Prop :=
  s.params.Legal ∧ Memory.wf s.acc ∧ (∀ c ∈ s.acc, c.1 < s.params.capacity) ∧
    s.accLen.toNat ≤ s.params.capacity ∧ s.WaitsForAFrame ∧ s.WidthsHold ∧ Table.wf s.tbl

/-- What the receive-path claims ask of a state: legal parameters and ACC in canonical form. -/
abbrev State.Ready (s : State) : Prop := s.params.Legal ∧ Memory.wf s.acc

/-- Some bytes, and room for them: APPEND takes them (R121). -/
abbrev State.HasRoomFor (s : State) (rxBytes : List Byte) : Prop :=
  rxBytes ≠ [] ∧ s.accLen.toNat + rxBytes.length ≤ s.params.capacity

/-- The bytes DECODE looks at in a RECEIVE that fits: the buffered ones, then the new ones (R65, R121). -/
abbrev State.joined (s : State) (rxBytes : List Byte) : List Byte := s.buffered ++ rxBytes

/-- A frame that passes every check of DECODE starts the sequence `f` (R122 steps 1 to 6). -/
abbrev GoodFrame (f : List Byte) : Prop :=
  10 ≤ f.length ∧ f.take 4 = magic ∧ 2 ≤ frameLength f ∧ 9 + frameLength f ≤ f.length ∧
    frameXor f = frameChecksum f

/-- What DISPATCH of `(id, payload)` must produce: nothing when no entry of the active table has the id (R152), else
the event of the entry with the smallest index that has it (R151, R153); entry `i` is the one at
`(TBL_BASE + i) mod 2^TBL_AW` (R57). -/
def DispatchedAs (s : State) (id : Half) (payload : List Byte) (event : Option DispatchEvent) : Prop :=
  (event = none ∧
    ∀ i < s.tblCount.toNat, (s.entryAt ((s.tblBase + i) % 2 ^ s.params.tblAw)).id ≠ id) ∨
  ∃ i < s.tblCount.toNat,
    (s.entryAt ((s.tblBase + i) % 2 ^ s.params.tblAw)).id = id ∧
    (∀ j < i, (s.entryAt ((s.tblBase + j) % 2 ^ s.params.tblAw)).id ≠ id) ∧
    event = some
      { handler := (s.entryAt ((s.tblBase + i) % 2 ^ s.params.tblAw)).handler
        id := id
        payload := payload
        len := BitVec.ofNat 16 payload.length
        uctx := s.uctx }

/-- Two states that differ at most in bytes of ACC at offsets `ACC_LEN` and above, which "have no meaning" (R21). -/
def SameToTheHost (s t : State) : Prop :=
  t = { s with acc := t.acc } ∧ ∀ a < s.accLen.toNat, Memory.read s.acc a = Memory.read t.acc a

/-- Two outcomes of the same kind, with related states or the same reason. -/
def SameOutcome (r : State → State → Prop) (a b : Outcome) : Prop :=
  match a, b with
  | .next s, .next t => r s t
  | .fault x, .fault y => x = y
  | .refused x, .refused y => x = y
  | _, _ => False

/-- One RECEIVE after another (R135). -/
def receiveEach : List (List Byte) → State → Outcome
  | [], s => .next s
  | c :: cs, s =>
    match exec (.receive c) s with
    | .next t => receiveEach cs t
    | .fault x => .fault x
    | .refused x => .refused x

end Sys2Proof.Machine
end

