-- ==== Sys2Proof/Certificates/Slice0/Obligations.lean ====
section
/-! DEFINITION. The statements for the provers, from the numbered rules of spec/. -/

open Sys2Proof Sys2Proof.Machine

/-! ### Reset and the context operations -/

/-- R36: the registers after hardware reset, the phase EMPTY, and the registers after an accepted INIT. -/
def Obligations.ResetAndInitValues : Prop :=
  (State.reset.accLen = 0 ∧ State.reset.tpWr = false ∧ State.reset.tpRd = false ∧ State.reset.uctx = 0 ∧
    State.reset.tblBase = 0 ∧ State.reset.tblCount = 0 ∧ State.reset.rxPhase = .empty) ∧
  ∀ (s : State) (wr rd : Bool) (u b : Nat) (c : Half), ∃ t,
    exec (.init true wr rd u b c) s = .next t ∧ t.accLen = 0 ∧ (∀ i, Memory.read t.acc i = 0) ∧
      t.tpWr = wr ∧ t.tpRd = rd ∧ t.uctx = u ∧ t.tblBase = b ∧ t.tblCount = c

/-- R210: a hardware reset, from any state, gives the registers of R36, drops what was buffered and produces no
response; TBL, the transport and what the host does next are not the block's and stay. -/
def Obligations.HardwareResetFromAnyState : Prop :=
  ∀ (s : State) (rest : List HostAction), s.inbox = .reset :: rest →
    ∃ t, step s = .next t ∧
      t = { s with
            acc := t.acc, accLen := 0, tpWr := false, tpRd := false, uctx := 0, tblBase := 0, tblCount := 0
            inbox := rest } ∧
      t.buffered = []

/-- R100, R103: what INIT writes when a transport is supplied, and that it changes nothing when none is;
nothing else changes. -/
def Obligations.InitInstallsOrIsIgnored : Prop :=
  ∀ (s : State) (wr rd : Bool) (u b : Nat) (c : Half),
    (∃ t, exec (.init true wr rd u b c) s = .next t ∧
      t = { s with
            acc := t.acc, accLen := 0, tpWr := wr, tpRd := rd, uctx := u, tblBase := b, tblCount := c
            trace := s.trace ++ [.completed] } ∧
      ∀ i, Memory.read t.acc i = 0) ∧
    exec (.init false wr rd u b c) s = .next { s with trace := s.trace ++ [.completed] }

/-- R104, R211: an accepted INIT leaves no trace of the block's registers before it. -/
def Obligations.InitForgetsTheBlock : Prop :=
  ∀ (s s' : State) (wr rd : Bool) (u b : Nat) (c : Half),
    s'.params = s.params → s'.tbl = s.tbl → s'.inbox = s.inbox → s'.transport = s.transport →
    s'.draws = s.draws → s'.trace = s.trace →
    exec (.init true wr rd u b c) s' = exec (.init true wr rd u b c) s

/-- R101: SET_TABLE replaces the table reference and nothing else. -/
def Obligations.SetTableReplacesTheReference : Prop :=
  ∀ (s : State) (b : Nat) (c : Half),
    exec (.setTable b c) s = .next { s with tblBase := b, tblCount := c, trace := s.trace ++ [.completed] }

/-! ### RECEIVE: APPEND and DECODE -/

/-- R132: a RECEIVE of no bytes changes nothing and answers RX_IGNORED. -/
def Obligations.ReceiveOfNothingIsIgnored : Prop :=
  ∀ s : State, exec (.receive []) s = .next { s with trace := s.trace ++ [.received .ignored none] }

/-- R121: an APPEND that fits stores the bytes at the tail, moves no byte already there and adds `n` to ACC_LEN
without wrap; one that does not fit discards old and new bytes and ends the RECEIVE with RX_OVERFLOW. That the overflow
leaves every byte of ACC as it was is the model's choice (log entry 7): R24 and U5 leave those bytes open. -/
def Obligations.AppendStoresOrOverflows : Prop :=
  ∀ (s : State) (bytes : List Byte), s.Ready → bytes ≠ [] →
    (s.accLen.toNat + bytes.length > s.params.capacity →
      exec (.receive bytes) s =
        .next { s with accLen := 0, trace := s.trace ++ [.received .overflow none] }) ∧
    (s.accLen.toNat + bytes.length ≤ s.params.capacity →
      exec (.receive bytes) s = .next (runDecode (appendFits bytes s)) ∧
      appendFits bytes s = { s with acc := (appendFits bytes s).acc, accLen := (appendFits bytes s).accLen } ∧
      (appendFits bytes s).accLen.toNat = s.accLen.toNat + bytes.length ∧
      (∀ k (h : k < bytes.length), Memory.read (appendFits bytes s).acc (s.accLen.toNat + k) = bytes[k]) ∧
      ∀ a, a < s.accLen.toNat ∨ s.accLen.toNat + bytes.length ≤ a →
        Memory.read (appendFits bytes s).acc a = Memory.read s.acc a)

/-- R35 (column RECEIVE): what any RECEIVE leaves unchanged. Only ACC, ACC_LEN and the trace may change; ACC
changes in the bytes stored and in no other, and not at all when nothing is stored (the last clause is the
model's choice, log entry 7: R24 would allow a clear to change bytes too). -/
def Obligations.ReceiveFrame : Prop :=
  ∀ (s : State) (bytes : List Byte), Memory.wf s.acc →
    ∃ t, exec (.receive bytes) s = .next t ∧
      t = { s with acc := t.acc, accLen := t.accLen, trace := t.trace } ∧
      (s.HasRoomFor bytes → ∀ a, a < s.accLen.toNat ∨ s.accLen.toNat + bytes.length ≤ a →
        Memory.read t.acc a = Memory.read s.acc a) ∧
      (¬ s.HasRoomFor bytes → ∀ a, Memory.read t.acc a = Memory.read s.acc a)

/-- R136, R191: RECEIVE answers exactly once; a dispatch event accompanies RX_FRAME only; on every status but
RX_WAIT and RX_IGNORED the accumulator is empty afterwards; an error changes no register but ACC_LEN. -/
def Obligations.ReceiveAnswersOnce : Prop :=
  ∀ (s : State) (bytes : List Byte), ∃ t status event,
    exec (.receive bytes) s = .next t ∧
    t.trace = s.trace ++ [.received status event] ∧
    (event ≠ none → status = .frame) ∧
    (status ≠ .wait → status ≠ .ignored → t.accLen = 0) ∧
    (status ∈ [.overflow, .badMagic, .badLength, .badChecksum] →
      event = none ∧ t = { s with acc := t.acc, accLen := 0, trace := t.trace })

/-- R123: with fewer than 10 bytes buffered DECODE waits, whatever they are. -/
def Obligations.WaitsForTenBytes : Prop :=
  ∀ (s : State) (bytes : List Byte), s.Ready → s.HasRoomFor bytes → (s.joined bytes).length < 10 →
    ∃ t, exec (.receive bytes) s = .next t ∧
      t = { s with acc := t.acc, accLen := t.accLen, trace := s.trace ++ [.received .wait none] } ∧
      t.accLen.toNat = s.accLen.toNat + bytes.length ∧ t.buffered = s.joined bytes

/-- R124: any difference from the magic in the first four bytes clears the whole accumulator. -/
def Obligations.BadMagicClears : Prop :=
  ∀ (s : State) (bytes : List Byte), s.Ready → s.HasRoomFor bytes → 10 ≤ (s.joined bytes).length →
    (s.joined bytes).take 4 ≠ [0x46, 0x4D, 0x54, 0x50] →
    ∃ t, exec (.receive bytes) s = .next t ∧
      t = { s with acc := t.acc, accLen := 0, trace := s.trace ++ [.received .badMagic none] }

/-- R126: a good magic and `length < 2` clear the accumulator, whatever the last byte is. -/
def Obligations.BadLengthClears : Prop :=
  ∀ (s : State) (bytes : List Byte), s.Ready → s.HasRoomFor bytes → 10 ≤ (s.joined bytes).length →
    (s.joined bytes).take 4 = [0x46, 0x4D, 0x54, 0x50] → frameLength (s.joined bytes) < 2 →
    ∃ t, exec (.receive bytes) s = .next t ∧
      t = { s with acc := t.acc, accLen := 0, trace := s.trace ++ [.received .badLength none] }

/-- R127: with fewer than `9 + length` bytes DECODE waits and keeps every byte. -/
def Obligations.WaitsForTheWholeFrame : Prop :=
  ∀ (s : State) (bytes : List Byte), s.Ready → s.HasRoomFor bytes → 10 ≤ (s.joined bytes).length →
    (s.joined bytes).take 4 = [0x46, 0x4D, 0x54, 0x50] → 2 ≤ frameLength (s.joined bytes) →
    (s.joined bytes).length < 9 + frameLength (s.joined bytes) →
    ∃ t, exec (.receive bytes) s = .next t ∧
      t = { s with acc := t.acc, accLen := t.accLen, trace := s.trace ++ [.received .wait none] } ∧
      t.accLen.toNat = s.accLen.toNat + bytes.length ∧ t.buffered = s.joined bytes

/-- R128: a complete frame whose checksum byte is not the exclusive-or of the bytes before it clears the accumulator
and dispatches nothing. -/
def Obligations.BadChecksumClears : Prop :=
  ∀ (s : State) (bytes : List Byte), s.Ready → s.HasRoomFor bytes → 10 ≤ (s.joined bytes).length →
    (s.joined bytes).take 4 = [0x46, 0x4D, 0x54, 0x50] → 2 ≤ frameLength (s.joined bytes) →
    9 + frameLength (s.joined bytes) ≤ (s.joined bytes).length →
    xor8 ((s.joined bytes).take (8 + frameLength (s.joined bytes))) ≠
      byteAt (s.joined bytes) (8 + frameLength (s.joined bytes)) →
    ∃ t, exec (.receive bytes) s = .next t ∧
      t = { s with acc := t.acc, accLen := 0, trace := s.trace ++ [.received .badChecksum none] }

/-- R129 to R131, R150 to R153: a good frame is dispatched with its command id and its `length - 2` payload bytes to the
first entry of the active table with that id, to none when there is none, and the whole accumulator is
cleared, bytes after the checksum included, whether or not an entry matched. -/
def Obligations.GoodFrameIsDispatched : Prop :=
  ∀ (s : State) (bytes : List Byte), s.Ready → s.HasRoomFor bytes → GoodFrame (s.joined bytes) →
    ∃ t event, exec (.receive bytes) s = .next t ∧
      t = { s with acc := t.acc, accLen := 0, trace := s.trace ++ [.received .frame event] } ∧
      DispatchedAs s (le16 (byteAt (s.joined bytes) 8) (byteAt (s.joined bytes) 9))
        (((s.joined bytes).drop 10).take (frameLength (s.joined bytes) - 2)) event

/-- R134: a header that announces more than CAPACITY is never dispatched: each RECEIVE of some bytes waits with all of
them kept, or overflows. -/
def Obligations.FrameTooLongNeverDispatches : Prop :=
  ∀ (s : State) (bytes : List Byte), s.Ready → 10 ≤ s.accLen.toNat →
    s.buffered.take 4 = magic → s.params.capacity < 9 + frameLength s.buffered → bytes ≠ [] →
    ∃ t, exec (.receive bytes) s = .next t ∧
      (s.accLen.toNat + bytes.length ≤ s.params.capacity →
        t = { s with acc := t.acc, accLen := t.accLen, trace := s.trace ++ [.received .wait none] } ∧
        t.buffered = s.joined bytes) ∧
      (s.params.capacity < s.accLen.toNat + bytes.length →
        t = { s with acc := t.acc, accLen := 0, trace := s.trace ++ [.received .overflow none] })

/-- R133: of two whole frames in one RECEIVE the first is dispatched and the second is lost. -/
def Obligations.SecondFrameIsLost : Prop :=
  ∀ (s : State) (c1 q1 c2 q2 : Half) (p1 p2 : List Byte), s.Ready → s.accLen = 0 →
    p1.length + p2.length + 22 ≤ s.params.capacity →
    ∃ t event, exec (.receive (encodeFrame c1 q1 p1 ++ encodeFrame c2 q2 p2)) s = .next t ∧
      t = { s with acc := t.acc, accLen := 0, trace := s.trace ++ [.received .frame event] } ∧
      DispatchedAs s c1 p1 event

/-- R135: splitting a RECEIVE after bytes that end in a wait changes nothing but the extra wait in the trace and bytes
the host cannot see. -/
def Obligations.SplittingAReceiveAtAWait : Prop :=
  ∀ (s t : State) (a b : List Byte), s.Ready → a ≠ [] → b ≠ [] →
    exec (.receive a) s = .next t → t.trace = s.trace ++ [.received .wait none] →
    ∃ u v status event, exec (.receive b) t = .next u ∧ exec (.receive (a ++ b)) s = .next v ∧
      v.trace = s.trace ++ [.received status event] ∧
      u.trace = s.trace ++ [.received .wait none, .received status event] ∧
      SameToTheHost { v with trace := u.trace } u

/-- R30, R31: from phase BODY no RECEIVE reports a bad magic or a bad length. -/
def Obligations.BodyNeverReportsAHeaderError : Prop :=
  ∀ (s : State) (bytes : List Byte), s.Inv → s.rxPhase = .body →
    ∃ t status event, exec (.receive bytes) s = .next t ∧
      t.trace = s.trace ++ [.received status event] ∧ status ≠ .badMagic ∧ status ≠ .badLength

/-- R31: after a RECEIVE of some bytes the phase is EMPTY, unless it answered RX_WAIT, and then it is HEADER or BODY
by the new length. -/
def Obligations.StatusDecidesThePhase : Prop :=
  ∀ (s : State) (bytes : List Byte), s.params.Legal → bytes ≠ [] →
    ∃ t status event, exec (.receive bytes) s = .next t ∧
      t.trace = s.trace ++ [.received status event] ∧
      (status ≠ .wait → t.rxPhase = .empty) ∧
      (status = .wait → t.rxPhase = if s.accLen.toNat + bytes.length < 10 then .header else .body)

/-! ### DISPATCH -/

/-- R57: a table longer than the address space dispatches as one of exactly `2^TBL_AW` entries. -/
def Obligations.LongTableRevisitsEntries : Prop :=
  ∀ (s : State) (id : Half) (payload : List Byte) (plen : Half) (u : Nat),
    2 ^ s.params.tblAw < s.tblCount.toNat →
    dispatch id payload plen u s =
      dispatch id payload plen u { s with tblCount := BitVec.ofNat 16 (2 ^ s.params.tblAw) }

/-- R156: with an empty table every good frame is accepted, cleared and dispatched to no handler. -/
def Obligations.EmptyTableDispatchesNothing : Prop :=
  ∀ (s : State) (bytes : List Byte), s.Ready → s.HasRoomFor bytes → GoodFrame (s.joined bytes) → s.tblCount = 0 →
    ∃ t, exec (.receive bytes) s = .next t ∧
      t = { s with acc := t.acc, accLen := 0, trace := s.trace ++ [.received .frame none] }

/-- R101 corner case a, R155: a frame that completes after SET_TABLE is dispatched against the new table. -/
def Obligations.SwapTakesEffectForAFrameInFlight : Prop :=
  ∀ (s : State) (b : Nat) (c : Half) (bytes : List Byte), s.Ready → s.HasRoomFor bytes → GoodFrame (s.joined bytes) →
    ∃ t u event, exec (.setTable b c) s = .next t ∧ exec (.receive bytes) t = .next u ∧
      u.trace = s.trace ++ [.completed, .received .frame event] ∧
      DispatchedAs { s with tblBase := b, tblCount := c } (frameCommandId (s.joined bytes))
        (framePayload (s.joined bytes)) event

/-! ### SEND and ENCODE -/

/-- R165, R166: an accepted SEND produces one write event, the whole frame with its length and the user context, and
returns the transport's answer verbatim; a queued answer is the one returned, and where none is queued the
result is some value of RESULT_W bits signed (a free value, log entry 6). Nothing else changes.
That a SEND ends rests on a transport that answers (R223, U7; log entry 12). -/
def Obligations.SendHandsOverTheFrame : Prop :=
  ∀ (s : State) (cmdId seqType : Half) (payload : List Byte),
    payload.length + 11 ≤ s.params.capacity → s.tpWr = true →
    ∃ t result, exec (.send cmdId seqType payload) s = .next t ∧
      t = { s with
            transport := t.transport, draws := t.draws
            trace := s.trace ++ [.sent .sent result
              (some { bytes := encodeFrame cmdId seqType payload
                      len := BitVec.ofNat 16 (payload.length + 11)
                      uctx := s.uctx })] } ∧
      (∀ r rest, s.transport = r :: rest → result = r ∧ t.transport = rest ∧ t.draws = s.draws) ∧
      (s.transport = [] → t.transport = [] ∧ t.draws = s.draws + 1 ∧
        FitsSigned s.params.resultW result)

/-- R162 to R164, R192: the size check first, then the transport check; each rejection reports its own code with result
0, produces no write event and changes no state. -/
def Obligations.SendRejections : Prop :=
  ∀ (s : State) (cmdId seqType : Half) (payload : List Byte),
    (payload.length + 11 > s.params.capacity →
      exec (.send cmdId seqType payload) s = .next { s with trace := s.trace ++ [.sent .tooLarge 0 none] }) ∧
    (payload.length + 11 ≤ s.params.capacity → s.tpWr = false →
      exec (.send cmdId seqType payload) s = .next { s with trace := s.trace ++ [.sent .noTransport 0 none] })

/-- R167: SEND changes no state of the block, on any exit; only the transport's queue and the trace move.
That a SEND ends rests on a transport that answers (R223, U7; log entry 12). -/
def Obligations.SendChangesNoBlockState : Prop :=
  ∀ (s : State) (cmdId seqType : Half) (payload : List Byte),
    ∃ t, exec (.send cmdId seqType payload) s = .next t ∧
      t = { s with transport := t.transport, draws := t.draws, trace := t.trace }

/-- R161, R71, R72: ENCODE's bytes, and that the field rules of the decoder read every field of them back, at every
offset. -/
def Obligations.EncodedFieldsReadBack : Prop :=
  ∀ (cmdId seqType : Half) (payload : List Byte), payload.length + 11 ≤ 65535 →
    encodeFrame cmdId seqType payload =
      ([0x46, 0x4D, 0x54, 0x50] ++ [lo8 seqType, hi8 seqType] ++
        [lo8 (BitVec.ofNat 16 (payload.length + 2)), hi8 (BitVec.ofNat 16 (payload.length + 2))] ++
        [lo8 cmdId, hi8 cmdId] ++ payload) ++
      [xor8 ([0x46, 0x4D, 0x54, 0x50] ++ [lo8 seqType, hi8 seqType] ++
        [lo8 (BitVec.ofNat 16 (payload.length + 2)), hi8 (BitVec.ofNat 16 (payload.length + 2))] ++
        [lo8 cmdId, hi8 cmdId] ++ payload)] ∧
    (encodeFrame cmdId seqType payload).length = payload.length + 11 ∧
    frameSeqType (encodeFrame cmdId seqType payload) = seqType.toInt ∧
    frameLength (encodeFrame cmdId seqType payload) = payload.length + 2 ∧
    frameCommandId (encodeFrame cmdId seqType payload) = cmdId ∧
    framePayload (encodeFrame cmdId seqType payload) = payload ∧
    frameChecksum (encodeFrame cmdId seqType payload) = frameXor (encodeFrame cmdId seqType payload)

/-- R73: the exclusive-or of a whole encoded frame is 0, and its checksum is `0x0F` with every byte from offset 4 up to
`8 + length`. -/
def Obligations.EncodedFrameXorsToZero : Prop :=
  ∀ (cmdId seqType : Half) (payload : List Byte), payload.length + 11 ≤ 65535 →
    xor8 (encodeFrame cmdId seqType payload) = 0 ∧
    frameChecksum (encodeFrame cmdId seqType payload) =
      0x0F ^^^ xor8 (((encodeFrame cmdId seqType payload).drop 4).take (payload.length + 6))

/-! ### The path from one block to another -/

/-- R137: the bytes ENCODE builds, fed to an empty accumulator in one RECEIVE or split over several of at least one byte
each, end in RX_FRAME with DISPATCH of the same id and payload; every RECEIVE before the last waits. -/
def Obligations.RoundTripInAnyPieces : Prop :=
  ∀ (s : State) (cmdId seqType : Half) (payload : List Byte) (pieces : List (List Byte)), s.Ready → s.accLen = 0 →
    payload.length + 11 ≤ s.params.capacity → (∀ x ∈ pieces, x ≠ []) →
    pieces.flatten = encodeFrame cmdId seqType payload →
    ∃ t event, receiveEach pieces s = .next t ∧
      t = { s with
            acc := t.acc, accLen := 0
            trace := s.trace ++ List.replicate (pieces.length - 1) (.received .wait none) ++
              [.received .frame event] } ∧
      DispatchedAs s cmdId payload event

/-- R219: what a block sends, a block of at least its CAPACITY receives and dispatches.
That a SEND ends rests on a transport that answers (R223, U7; log entry 12). -/
def Obligations.SentFrameIsReceivedByAnotherBlock : Prop :=
  ∀ (a b : State) (cmdId seqType : Half) (payload : List Byte),
    payload.length + 11 ≤ a.params.capacity → a.tpWr = true →
    b.Ready → b.accLen = 0 → a.params.capacity ≤ b.params.capacity →
    ∃ a' result write b' event,
      exec (.send cmdId seqType payload) a = .next a' ∧
      a'.trace = a.trace ++ [.sent .sent result (some write)] ∧
      exec (.receive write.bytes) b = .next b' ∧
      b' = { b with acc := b'.acc, accLen := 0, trace := b.trace ++ [.received .frame event] } ∧
      DispatchedAs b cmdId payload event

/-- R222: a frame with one payload byte changed, every other byte as ENCODE built it, is rejected by its checksum. -/
def Obligations.OneChangedPayloadByteIsDetected : Prop :=
  ∀ (s : State) (cmdId seqType : Half) (payload : List Byte) (k : Nat) (hk : k < payload.length) (x : Byte),
    s.Ready → s.accLen = 0 → payload.length + 11 ≤ s.params.capacity → payload[k] ≠ x →
    ∃ t, exec (.receive ((encodeFrame cmdId seqType payload).set (10 + k) x)) s = .next t ∧
      t = { s with acc := t.acc, accLen := 0, trace := s.trace ++ [.received .badChecksum none] }

/-! ### FRAME -/

/-- The model's choice for the FRAME row (log entry 8): a frame arrives as one RECEIVE of its wire bytes, in the
layout of R70, and one of more than 65535 bytes, which no 16-bit `rx_n` counts (R9, R81), as a RECEIVE of its first
65535 and a RECEIVE of the rest. -/
def Obligations.FrameArrivesAsItsBytes : Prop :=
  ∀ (s : State) (seqType : Half) (region : List Byte) (checksum : Byte),
    wireBytes seqType region checksum = [0x46, 0x4D, 0x54, 0x50] ++ [lo8 seqType, hi8 seqType] ++
      [lo8 (BitVec.ofNat 16 region.length), hi8 (BitVec.ofNat 16 region.length)] ++ region ++ [checksum] ∧
    (region.length + 9 ≤ 65535 → exec (.frame seqType region checksum) s =
      exec (.receive (wireBytes seqType region checksum)) s) ∧
    (65535 < region.length + 9 → exec (.frame seqType region checksum) s =
      receiveEach [(wireBytes seqType region checksum).take 65535, (wireBytes seqType region checksum).drop 65535] s)

/-- R70, R122 through log entry 8: a frame that meets an empty accumulator and fits is dispatched when its checksum is
right and rejected when it is wrong; with a payload region of one byte it is rejected by its length, and with
none it is 9 bytes, which wait. -/
def Obligations.FrameAloneIsJudged : Prop :=
  ∀ (s : State) (seqType : Half) (region : List Byte) (checksum : Byte), s.Ready → s.accLen = 0 →
    region.length + 9 ≤ s.params.capacity →
    ∃ t, exec (.frame seqType region checksum) s = .next t ∧
      (2 ≤ region.length → checksum = xor8 (magic ++ halfBytes seqType ++ countedBytes region) →
        ∃ event, t = { s with acc := t.acc, accLen := 0, trace := s.trace ++ [.received .frame event] } ∧
          DispatchedAs s (le16 (byteAt region 0) (byteAt region 1)) (region.drop 2) event) ∧
      (2 ≤ region.length → checksum ≠ xor8 (magic ++ halfBytes seqType ++ countedBytes region) →
        t = { s with acc := t.acc, accLen := 0, trace := s.trace ++ [.received .badChecksum none] }) ∧
      (region.length = 1 →
        t = { s with acc := t.acc, accLen := 0, trace := s.trace ++ [.received .badLength none] }) ∧
      (region.length = 0 →
        t = { s with acc := t.acc, accLen := 9, trace := s.trace ++ [.received .wait none] })

/-! ### The whole machine -/

/-- R58, R198: every operation completes with exactly one response, from every state; a FRAME of more than 65535 bytes
is two RECEIVEs and gives two (the model's choice, log entry 8). That a SEND ends rests on a transport that answers
(R223, U7), which the model assumes (DESIGN CHOICE, log entry 12): it is no property of the block. -/
def Obligations.EveryOperationCompletes : Prop :=
  ∀ (i : Instr) (s : State), ∃ t outputs, exec i s = .next t ∧ t.trace = s.trace ++ outputs ∧
    ((∀ q g c, i = .frame q g c → g.length + 9 ≤ 65535) → outputs.length = 1) ∧
    (∀ q g c, i = .frame q g c → 65535 < g.length + 9 → outputs.length = 2)

/-- R83 to R85: every output's fields have their widths, and `disp_len` and `tx_len` count the bytes they come with.
That a SEND ends rests on a transport that answers (R223, U7; log entry 12). -/
def Obligations.OutputsFitTheirFields : Prop :=
  ∀ (i : Instr) (s : State), s.Inv → i.wf s.params = true →
    ∃ t outputs, exec i s = .next t ∧ t.trace = s.trace ++ outputs ∧ outputs ≠ [] ∧
      ∀ o ∈ outputs, o.Fits s.params

/-- R35: which operations may write which state; TBL, the parameters and what the host does next are written by none.
That a SEND ends rests on a transport that answers (R223, U7; log entry 12). -/
def Obligations.AccessSummary : Prop :=
  ∀ (i : Instr) (s : State), ∃ t, exec i s = .next t ∧
    t.tbl = s.tbl ∧ t.params = s.params ∧ t.inbox = s.inbox ∧
    ((∀ wr rd u b c, i ≠ .init true wr rd u b c) → t.tpWr = s.tpWr ∧ t.tpRd = s.tpRd ∧ t.uctx = s.uctx) ∧
    ((∀ wr rd u b c, i ≠ .init true wr rd u b c) → (∀ b c, i ≠ .setTable b c) →
      t.tblBase = s.tblBase ∧ t.tblCount = s.tblCount) ∧
    ((∀ wr rd u b c, i ≠ .init true wr rd u b c) → (∀ bytes, i ≠ .receive bytes) →
      (∀ q g c, i ≠ .frame q g c) → t.acc = s.acc ∧ t.accLen = s.accLen)

/-- R23, R30, R20 and the canonical forms: every step keeps the invariant, from every state that has it. -/
def Obligations.StepKeepsTheInvariant : Prop :=
  ∀ s t : State, s.Inv → step s = .next t → t.Inv

/-- The invariant holds after reset. -/
def Obligations.ResetHasTheInvariant : Prop := State.reset.Inv

/-- R21, R24: the value of a byte of ACC at ACC_LEN or above can never be observed: two states that differ only there take
steps with the same outcome, to two states that differ only there. -/
def Obligations.DeadBytesAreUnobservable : Prop :=
  ∀ s t : State, Memory.wf s.acc → Memory.wf t.acc → SameToTheHost s t → SameOutcome SameToTheHost (step s) (step t)

/-! ### The port -/

/-- Decoding and encoding agree in both directions: a byte sequence decodes to `i` exactly when `i` is well-formed and
the sequence is its encoding. The layout of R70 and the codes of R80; the packing of operands is the model's
(log entry 2). -/
def Obligations.DecodeIsTheInverseOfEncode : Prop :=
  ∀ (p : Params) (bytes : List Byte) (i : Instr), decode p bytes = .ok i ↔ i.wf p = true ∧ encode p i = bytes

/-- R80, R70: sample sequences written out from the encodings. -/
def Obligations.SampleSequencesDecode : Prop :=
  decode Params.vectors [0x00, 0x07, 0x00, 0xEE, 0xFF, 0xC0, 0x10, 0x03, 0x00] =
    .ok (.init true true true 0xC0FFEE00 0x10 3) ∧
  decode Params.vectors [0x01, 0x40, 0x01, 0x00] = .ok (.setTable 0x40 1) ∧
  decode Params.vectors [0x02, 0x02, 0x00, 0x01, 0x02] = .ok (.receive [0x01, 0x02]) ∧
  decode Params.vectors [0x03, 0x04, 0x00, 0xFF, 0xFF, 0x00, 0x00] = .ok (.send 0x0004 0xFFFF []) ∧
  decode Params.vectors [0x46, 0x4D, 0x54, 0x50, 0x00, 0x00, 0x04, 0x00, 0x01, 0x00, 0xAA, 0xBB, 0x1B] =
    .ok (.frame 0 [0x01, 0x00, 0xAA, 0xBB] 0x1B)

/-- R82, R83: the response codes. -/
def Obligations.ResponseCodes : Prop :=
  (RxStatus.ignored.code = 0 ∧ RxStatus.wait.code = 1 ∧ RxStatus.frame.code = 2 ∧ RxStatus.overflow.code = 3 ∧
    RxStatus.badMagic.code = 4 ∧ RxStatus.badLength.code = 5 ∧ RxStatus.badChecksum.code = 6) ∧
  SendStatus.sent.code = 0 ∧ SendStatus.tooLarge.code = 1 ∧ SendStatus.noTransport.code = 2

/-- A step runs the decoded instruction: when the next action's bytes decode to `i`, the step is `exec i` at the state
with that action taken from the inbox. -/
def Obligations.StepRunsTheDecodedInstruction : Prop :=
  ∀ (s : State) (bytes : List Byte) (rest : List HostAction) (i : Instr),
    s.inbox = .operation bytes :: rest → decode s.params bytes = .ok i →
    step s = exec i { s with inbox := rest }

/-- R198, R225: with nothing asked of it the block keeps all its state. -/
def Obligations.IdleKeepsTheState : Prop :=
  ∀ s : State, s.inbox = [] → step s = .next s

/-- R60, R214: overlapped operations have no meaning; the model refuses them. -/
def Obligations.OverlapIsRefused : Prop :=
  ∀ (s : State) (a b : List Byte) (rest : List HostAction), s.inbox = .overlap a b :: rest →
    step s = .refused .overlappedOperations

/-- R61 b: a host write to an entry of TBL, made between two operations, is what the next read of that entry gives, and
changes no other entry and nothing else; a write outside TBL faults. -/
def Obligations.HostWriteIsSeen : Prop :=
  ∀ (s : State) (a word : Nat) (rest : List HostAction), s.inbox = .writeTable a word :: rest →
    (a < 2 ^ s.params.tblAw →
      ∃ t, step s = .next t ∧ t = { s with tbl := t.tbl, inbox := rest } ∧
        t.entryAt a = { id := BitVec.ofNat 16 word, handler := word / 65536 % 2 ^ s.params.handlerW } ∧
        ∀ b, b ≠ a → t.entryAt b = s.entryAt b) ∧
    (2 ^ s.params.tblAw ≤ a → step s = .fault (.noSuchTableEntry a))

/-! ### A frame one RECEIVE cannot carry -/

/-- R9, R81, R134 through log entry 8: a frame of more than 65535 bytes is longer than any CAPACITY and never dispatched.
Where its first 65535 bytes fit they wait and the rest overflows; everywhere else they overflow, and the 1 to 9
bytes of the rest are then buffered and wait. -/
def Obligations.FrameLongerThanOneReceive : Prop :=
  ∀ (s : State) (seqType : Half) (region : List Byte) (checksum : Byte), s.Ready →
    65535 < region.length + 9 → region.length < 65536 →
    ∃ t, exec (.frame seqType region checksum) s = .next t ∧
      (s.accLen = 0 ∧ s.params.capacity = 65535 →
        t = { s with
              acc := t.acc, accLen := 0
              trace := s.trace ++ [.received .wait none, .received .overflow none] }) ∧
      (¬ (s.accLen = 0 ∧ s.params.capacity = 65535) →
        t = { s with
              acc := t.acc, accLen := t.accLen
              trace := s.trace ++ [.received .overflow none, .received .wait none] } ∧
        t.accLen.toNat = region.length + 9 - 65535 ∧
        t.buffered = (region ++ [checksum]).drop 65527)
end

