-- ==== Sys2Proof/Laws/Codec.lean ====
section
/-! SUPPORT. The laws of byte order, of the request's field readers, and of the exclusive-or. -/

namespace Sys2Proof

/-! ### Byte order (R12, R51) -/

@[simp] theorem le16_lo8_hi8 (v : Half) : le16 (lo8 v) (hi8 v) = v := by
  unfold le16 lo8 hi8
  ext i hi
  simp only [BitVec.getElem_append, BitVec.getElem_setWidth, BitVec.getLsbD_ushiftRight]
  split
  · exact BitVec.getLsbD_eq_getElem hi
  · rw [show 8 + (i - 8) = i by omega]; exact BitVec.getLsbD_eq_getElem hi

/-- `le16(lo, hi) = lo + 256 * hi` (R12). -/
theorem le16_toNat (lo hi : Byte) : (le16 lo hi).toNat = lo.toNat + 256 * hi.toNat := by
  unfold le16
  rw [BitVec.toNat_append, Nat.shiftLeft_eq, ← Nat.shiftLeft_eq, ← Nat.shiftLeft_add_eq_or_of_lt lo.isLt,
    Nat.shiftLeft_eq]
  omega

@[simp] theorem lo8_le16 (lo hi : Byte) : lo8 (le16 lo hi) = lo := by
  apply BitVec.eq_of_toNat_eq
  have := lo.isLt
  rw [lo8, BitVec.toNat_setWidth, le16_toNat]
  omega

@[simp] theorem hi8_le16 (lo hi : Byte) : hi8 (le16 lo hi) = hi := by
  apply BitVec.eq_of_toNat_eq
  have := lo.isLt
  have := hi.isLt
  rw [hi8, BitVec.toNat_setWidth, BitVec.toNat_ushiftRight, le16_toNat, Nat.shiftRight_eq_div_pow]
  omega

theorem natBytes_length (k n : Nat) : (natBytes k n).length = k := by
  induction k generalizing n with
  | zero => rfl
  | succ k ih => simp [natBytes, ih]

theorem natOfBytes_natBytes {k n : Nat} (h : n < 256 ^ k) : natOfBytes (natBytes k n) = n := by
  induction k generalizing n with
  | zero => simp only [natBytes, natOfBytes]; simp at h; omega
  | succ k ih =>
    have hn : n / 256 < 256 ^ k := by rw [pow_succ] at h; omega
    simp only [natBytes, natOfBytes, BitVec.toNat_ofNat, ih hn]
    omega

theorem natBytes_natOfBytes (bs : List Byte) : natBytes bs.length (natOfBytes bs) = bs := by
  induction bs with
  | nil => rfl
  | cons b bs ih =>
    have hb := b.isLt
    simp only [List.length_cons, natBytes, natOfBytes]
    rw [show (b.toNat + 256 * natOfBytes bs) / 256 = natOfBytes bs by omega, ih]
    congr 1
    apply BitVec.eq_of_toNat_eq
    rw [BitVec.toNat_ofNat]
    omega

theorem lt_pow_fieldBytes {w n : Nat} (h : n < 2 ^ w) : n < 256 ^ fieldBytes w := by
  refine lt_of_lt_of_le h ?_
  rw [show (256 : Nat) = 2 ^ 8 from rfl, ← pow_mul]
  exact Nat.pow_le_pow_right (by decide) (by unfold fieldBytes; omega)

/-! ### Field readers: each reads exactly what its writer writes -/

theorem chain_eq_ok {α β : Type} {x : Parsed α} {f : α → List Byte → Parsed β} {r : β × List Byte} :
    chain x f = .ok r ↔ ∃ a rest, x = .ok (a, rest) ∧ f a rest = .ok r := by
  cases x with
  | error e => simp [chain]
  | ok ar => obtain ⟨a, rest⟩ := ar; simp [chain]

theorem takeByte_eq_ok {bytes : List Byte} {b : Byte} {rest : List Byte} :
    takeByte bytes = .ok (b, rest) ↔ bytes = b :: rest := by
  cases bytes <;> simp [takeByte]

theorem takeHalf_eq_ok {bytes : List Byte} {v : Half} {rest : List Byte} :
    takeHalf bytes = .ok (v, rest) ↔ bytes = halfBytes v ++ rest := by
  match bytes with
  | [] => simp [takeHalf, halfBytes]
  | [b] => simp [takeHalf, halfBytes]
  | lo :: hi :: r =>
    simp only [takeHalf, Except.ok.injEq, Prod.mk.injEq, halfBytes, List.cons_append, List.nil_append,
      List.cons.injEq]
    constructor
    · rintro ⟨rfl, rfl⟩; simp
    · rintro ⟨rfl, rfl, rfl⟩; simp

theorem takeBytes_eq_ok {n : Nat} {bytes a rest : List Byte} :
    takeBytes n bytes = .ok (a, rest) ↔ a.length = n ∧ bytes = a ++ rest := by
  unfold takeBytes
  split
  case isTrue h =>
    simp only [Except.ok.injEq, Prod.mk.injEq]
    constructor
    · rintro ⟨rfl, rfl⟩; simp [h]
    · rintro ⟨rfl, rfl⟩; simp
  case isFalse h =>
    simp only [reduceCtorEq, false_iff]
    rintro ⟨rfl, rfl⟩
    simp at h

theorem takeField_eq_ok {w : Nat} {bytes : List Byte} {v : Nat} {rest : List Byte} :
    takeField w bytes = .ok (v, rest) ↔ v < 2 ^ w ∧ bytes = natBytes (fieldBytes w) v ++ rest := by
  unfold takeField
  simp only [chain_eq_ok, takeBytes_eq_ok]
  constructor
  · rintro ⟨a, r, ⟨hl, rfl⟩, h⟩
    split at h
    case isTrue hw =>
      simp only [Except.ok.injEq, Prod.mk.injEq] at h
      obtain ⟨rfl, rfl⟩ := h
      rw [← hl, natBytes_natOfBytes]
      exact ⟨hw, rfl⟩
    case isFalse => cases h
  · rintro ⟨hv, rfl⟩
    refine ⟨_, rest, ⟨natBytes_length _ _, rfl⟩, ?_⟩
    rw [natOfBytes_natBytes (lt_pow_fieldBytes hv), if_pos hv]

theorem takeCounted_eq_ok {bytes a rest : List Byte} :
    takeCounted bytes = .ok (a, rest) ↔ FitsCount a ∧ bytes = countedBytes a ++ rest := by
  unfold takeCounted countedBytes
  simp only [chain_eq_ok, takeHalf_eq_ok, takeBytes_eq_ok]
  constructor
  · rintro ⟨v, r, rfl, hl, rfl⟩
    have := v.isLt
    refine ⟨by omega, ?_⟩
    rw [hl, BitVec.ofNat_toNat, BitVec.setWidth_eq, List.append_assoc]
  · rintro ⟨hf, rfl⟩
    refine ⟨_, _, by rw [List.append_assoc], ?_, rfl⟩
    rw [BitVec.toNat_ofNat, Nat.mod_eq_of_lt hf]

/-- The flag byte is below 8 and its three bits are the three operands. -/
theorem flagByte_bits (t w r : Bool) :
    (flagByte t w r).toNat < 8 ∧ (flagByte t w r).getLsbD 0 = t ∧ (flagByte t w r).getLsbD 1 = w ∧
      (flagByte t w r).getLsbD 2 = r := by
  revert t w r; decide

theorem flagByte_of_lt {b : Byte} (h : b.toNat < 8) :
    flagByte (b.getLsbD 0) (b.getLsbD 1) (b.getLsbD 2) = b := by
  have : ∀ n < 8, flagByte ((BitVec.ofNat 8 n).getLsbD 0) ((BitVec.ofNat 8 n).getLsbD 1)
      ((BitVec.ofNat 8 n).getLsbD 2) = BitVec.ofNat 8 n := by decide
  simpa using this b.toNat h

theorem decodeInit_eq_ok {p : Params} {bytes rest : List Byte} {i : Instr} :
    decodeInit p bytes = .ok (i, rest) ↔ ∃ t w r u b c, i = .init t w r u b c ∧ i.wf p ∧
      bytes = flagByte t w r :: (natBytes (fieldBytes p.uctxW) u ++ natBytes (fieldBytes p.tblAw) b ++ halfBytes c ++ rest) := by
  unfold decodeInit
  simp only [chain_eq_ok, takeByte_eq_ok]
  constructor
  · rintro ⟨flags, r1, rfl, h⟩
    split at h
    case isFalse => cases h
    case isTrue hf =>
      simp only [chain_eq_ok, takeField_eq_ok, takeHalf_eq_ok, Except.ok.injEq, Prod.mk.injEq] at h
      obtain ⟨u, r2, ⟨hu, rfl⟩, b, r3, ⟨hb, rfl⟩, c, r4, rfl, rfl, rfl⟩ := h
      refine ⟨_, _, _, u, b, c, rfl, by simp [Instr.wf, hu, hb], ?_⟩
      rw [flagByte_of_lt hf]
      simp
  · rintro ⟨t, w, r, u, b, c, rfl, hwf, rfl⟩
    simp only [Instr.wf, Bool.and_eq_true, decide_eq_true_eq] at hwf
    obtain ⟨h8, h0, h1, h2⟩ := flagByte_bits t w r
    refine ⟨_, _, rfl, ?_⟩
    rw [if_pos h8]
    simp only [chain_eq_ok, takeField_eq_ok, takeHalf_eq_ok]
    refine ⟨u, _, ⟨hwf.1, by simp only [List.append_assoc]⟩, b, _, ⟨hwf.2, rfl⟩, c, rest, rfl, ?_⟩
    rw [h0, h1, h2]

theorem decodeSetTable_eq_ok {p : Params} {bytes rest : List Byte} {i : Instr} :
    decodeSetTable p bytes = .ok (i, rest) ↔ ∃ b c, i = .setTable b c ∧ i.wf p ∧
      bytes = natBytes (fieldBytes p.tblAw) b ++ halfBytes c ++ rest := by
  unfold decodeSetTable
  simp only [chain_eq_ok, takeField_eq_ok, takeHalf_eq_ok, Except.ok.injEq, Prod.mk.injEq]
  constructor
  · rintro ⟨b, r1, ⟨hb, rfl⟩, c, r2, rfl, rfl, rfl⟩
    exact ⟨b, c, rfl, by simp [Instr.wf, hb], by simp⟩
  · rintro ⟨b, c, rfl, hwf, rfl⟩
    exact ⟨b, _, ⟨by simpa [Instr.wf] using hwf, by rw [List.append_assoc]⟩, c, rest, rfl, rfl, rfl⟩

theorem decodeReceive_eq_ok {p : Params} {bytes rest : List Byte} {i : Instr} :
    decodeReceive bytes = .ok (i, rest) ↔ ∃ bs, i = .receive bs ∧ i.wf p ∧ bytes = countedBytes bs ++ rest := by
  unfold decodeReceive
  simp only [chain_eq_ok, takeCounted_eq_ok, Except.ok.injEq, Prod.mk.injEq]
  constructor
  · rintro ⟨bs, r1, ⟨hf, rfl⟩, rfl, rfl⟩
    exact ⟨bs, rfl, by simpa [Instr.wf] using hf, rfl⟩
  · rintro ⟨bs, rfl, hwf, rfl⟩
    exact ⟨bs, rest, ⟨by simpa [Instr.wf] using hwf, rfl⟩, rfl, rfl⟩

theorem decodeSend_eq_ok {p : Params} {bytes rest : List Byte} {i : Instr} :
    decodeSend bytes = .ok (i, rest) ↔ ∃ c q bs, i = .send c q bs ∧ i.wf p ∧
      bytes = halfBytes c ++ halfBytes q ++ countedBytes bs ++ rest := by
  unfold decodeSend
  simp only [chain_eq_ok, takeHalf_eq_ok, takeCounted_eq_ok, Except.ok.injEq, Prod.mk.injEq]
  constructor
  · rintro ⟨c, r1, rfl, q, r2, rfl, bs, r3, ⟨hf, rfl⟩, rfl, rfl⟩
    exact ⟨c, q, bs, rfl, by simpa [Instr.wf] using hf, by simp only [List.append_assoc]⟩
  · rintro ⟨c, q, bs, rfl, hwf, rfl⟩
    exact ⟨c, _, by simp only [List.append_assoc], q, _, rfl, bs, rest, ⟨by simpa [Instr.wf] using hwf, rfl⟩, rfl, rfl⟩

theorem decodeWireFrame_eq_ok {p : Params} {bytes rest : List Byte} {i : Instr} :
    decodeWireFrame bytes = .ok (i, rest) ↔ ∃ q g c, i = .frame q g c ∧ i.wf p ∧
      bytes = halfBytes q ++ countedBytes g ++ c :: rest := by
  unfold decodeWireFrame
  simp only [chain_eq_ok, takeHalf_eq_ok, takeCounted_eq_ok, takeByte_eq_ok, Except.ok.injEq, Prod.mk.injEq]
  constructor
  · rintro ⟨q, r1, rfl, g, r2, ⟨hf, rfl⟩, c, r3, rfl, rfl, rfl⟩
    exact ⟨q, g, c, rfl, by simpa [Instr.wf] using hf, by simp⟩
  · rintro ⟨q, g, c, rfl, hwf, rfl⟩
    exact ⟨q, _, by simp only [List.append_assoc], g, _, ⟨by simpa [Instr.wf] using hwf, rfl⟩, c, rest, rfl, rfl, rfl⟩

/-! ### The exclusive-or (R12, R73) -/

theorem xor8_nil : xor8 [] = 0 := rfl

theorem foldl_xor (a : Byte) (bs : List Byte) : bs.foldl (· ^^^ ·) a = a ^^^ xor8 bs := by
  unfold xor8
  induction bs generalizing a with
  | nil => simp
  | cons b bs ih => simp only [List.foldl_cons]; rw [ih (a ^^^ b), ih (0 ^^^ b)]; simp [BitVec.xor_assoc]

theorem xor8_cons (b : Byte) (bs : List Byte) : xor8 (b :: bs) = b ^^^ xor8 bs := by
  unfold xor8
  rw [List.foldl_cons, foldl_xor]
  simp [xor8]

theorem xor8_append (a b : List Byte) : xor8 (a ++ b) = xor8 a ^^^ xor8 b := by
  induction a with
  | nil => simp [xor8_nil]
  | cons x a ih => simp [xor8_cons, ih, BitVec.xor_assoc]

/-- One changed byte changes the exclusive-or (R222). -/
theorem xor8_set_ne {bs : List Byte} {k : Nat} (hk : k < bs.length) {b : Byte} (hb : bs[k] ≠ b) :
    xor8 (bs.set k b) ≠ xor8 bs := by
  induction bs generalizing k with
  | nil => simp at hk
  | cons x bs ih =>
    cases k with
    | zero =>
      simp only [List.set_cons_zero, xor8_cons]
      intro h
      exact hb (by simpa using (BitVec.xor_right_inj (xor8 bs) |>.1 (by simpa [BitVec.xor_comm] using h)).symm)
    | succ k =>
      simp only [List.set_cons_succ, xor8_cons]
      intro h
      exact ih (by simpa using hk) (by simpa using hb) ((BitVec.xor_right_inj x).1 h)

end Sys2Proof
end

