-- ==== Sys2Proof/Laws/Memory.lean ====
section
/-! SUPPORT. The laws of the accumulator's bytes and of the table memory. -/

namespace Sys2Proof.Machine

@[simp] theorem read_nil (a : Nat) : Memory.read [] a = Memory.blank := rfl

@[simp] theorem read_zeroed (a : Nat) : Memory.read Memory.zeroed a = 0 := rfl

theorem wf_nil : Memory.wf [] := ⟨List.Pairwise.nil, by simp⟩

theorem wf_zeroed : Memory.wf Memory.zeroed := wf_nil

/-- An offset below every listed one reads as blank. -/
theorem read_of_lt {m : Memory} {a : Nat} (h : ∀ c ∈ m, a < c.1) : Memory.read m a = Memory.blank := by
  induction m with
  | nil => rfl
  | cons x m ih =>
    have hx := h x (by simp)
    simp only [Memory.read]
    rw [if_neg (by omega)]
    exact ih fun c hc => h c (by simp [hc])

/-- Every entry of a written memory was there before or is the one written. -/
theorem mem_write {m : Memory} {a : Nat} {v : Byte} {c : Host.Cell} (h : c ∈ Memory.write m a v) :
    c ∈ m ∨ (c = (a, v) ∧ v ≠ Memory.blank) := by
  induction m with
  | nil => by_cases hv : v = Memory.blank <;> simp_all [Memory.write]
  | cons x m ih =>
    obtain ⟨k, w⟩ := x
    simp only [Memory.write] at h
    split at h
    · split at h <;> grind
    · split at h
      · split at h <;> grind
      · rcases List.mem_cons.1 h with rfl | h'
        · simp
        · rcases ih h' with h'' | h'' <;> simp_all

theorem write_wf {m : Memory} (h : Memory.wf m) (a : Nat) (v : Byte) : Memory.wf (Memory.write m a v) := by
  induction m with
  | nil => by_cases hv : v = Memory.blank <;> simp_all [Memory.write, Memory.wf]
  | cons x m ih =>
    obtain ⟨k, w⟩ := x
    obtain ⟨hkm, hb⟩ := h
    obtain ⟨hk, hp⟩ := List.pairwise_cons.1 hkm
    have hm : Memory.wf m := ⟨hp, fun c hc => hb c (by simp [hc])⟩
    have hw : w ≠ Memory.blank := hb (k, w) (by simp)
    simp only [Memory.write]
    split
    case isTrue hlt =>
      split
      · exact ⟨List.pairwise_cons.2 ⟨hk, hp⟩, hb⟩
      case isFalse hv =>
        refine ⟨List.pairwise_cons.2 ⟨?_, List.pairwise_cons.2 ⟨hk, hp⟩⟩, ?_⟩
        · intro c hc
          rcases List.mem_cons.1 hc with rfl | hc
          · exact hlt
          · exact lt_trans hlt (hk c hc)
        · intro c hc
          rcases List.mem_cons.1 hc with rfl | hc
          · exact hv
          · exact hb c hc
    case isFalse hlt =>
      split
      case isTrue heq =>
        split
        · exact hm
        case isFalse hv =>
          subst heq
          refine ⟨List.pairwise_cons.2 ⟨hk, hp⟩, ?_⟩
          intro c hc
          rcases List.mem_cons.1 hc with rfl | hc
          · exact hv
          · exact hm.2 c hc
      case isFalse hne =>
        obtain ⟨hp', hb'⟩ := ih hm
        refine ⟨List.pairwise_cons.2 ⟨?_, hp'⟩, ?_⟩
        · intro c hc
          rcases mem_write hc with hc | ⟨rfl, -⟩
          · exact hk c hc
          · simp only; omega
        · intro c hc
          rcases List.mem_cons.1 hc with rfl | hc
          · exact hw
          · exact hb' c hc

/-- A read after a write: the value written there, the old value elsewhere. -/
theorem read_write {m : Memory} (h : Memory.wf m) (a b : Nat) (v : Byte) :
    Memory.read (Memory.write m a v) b = if b = a then v else Memory.read m b := by
  induction m with
  | nil =>
    by_cases hv : v = Memory.blank <;> by_cases hb : b = a
    all_goals simp_all [Memory.write, Memory.read, eq_comm]
  | cons x m ih =>
    obtain ⟨k, w⟩ := x
    obtain ⟨hp, hb⟩ := h
    obtain ⟨hk, hp⟩ := List.pairwise_cons.1 hp
    have hm : Memory.wf m := ⟨hp, fun c hc => hb c (by simp [hc])⟩
    have ih := ih hm
    have hblank : a ≤ k → Memory.read m a = Memory.blank := fun hak =>
      read_of_lt fun c hc => lt_of_le_of_lt hak (hk c hc)
    simp only [Memory.write]
    by_cases hba : b = a
    · subst hba
      rw [if_pos rfl]
      split_ifs <;> grind [Memory.read]
    · rw [if_neg hba]
      split_ifs <;> grind [Memory.read]

theorem writeBytes_wf {m : Memory} (h : Memory.wf m) (off : Nat) (bs : List Byte) :
    Memory.wf (Memory.writeBytes m off bs) := by
  induction bs generalizing m off with
  | nil => exact h
  | cons b bs ih => exact ih (write_wf h off b) (off + 1)

/-- A read after APPEND's store: the stored byte inside it, the old byte outside it. -/
theorem read_writeBytes {m : Memory} (h : Memory.wf m) (off : Nat) (bs : List Byte) (a : Nat) :
    Memory.read (Memory.writeBytes m off bs) a =
      if off ≤ a ∧ a < off + bs.length then bs.getD (a - off) 0 else Memory.read m a := by
  induction bs generalizing m off with
  | nil =>
    rw [if_neg (by simp)]
    rfl
  | cons b bs ih =>
    simp only [Memory.writeBytes, List.length_cons]
    rw [ih (write_wf h off b), read_write h]
    by_cases hao : a = off
    · subst hao
      rw [if_neg (by omega), if_pos rfl, if_pos (by omega)]
      simp
    · rw [if_neg hao]
      by_cases hin : off + 1 ≤ a ∧ a < off + 1 + bs.length
      · rw [if_pos hin, if_pos (by omega), show a - off = (a - (off + 1)) + 1 by omega]
        simp
      · rw [if_neg hin, if_neg (by omega)]

/-- Every entry of a memory after a store was there before or lies inside the store. -/
theorem mem_writeBytes {m : Memory} {off : Nat} {bs : List Byte} {c : Host.Cell}
    (h : c ∈ Memory.writeBytes m off bs) : c ∈ m ∨ c.1 < off + bs.length := by
  induction bs generalizing m off with
  | nil => exact .inl h
  | cons b bs ih =>
    simp only [List.length_cons]
    rcases ih h with h | h
    · rcases mem_write h with h | ⟨rfl, -⟩
      · exact .inl h
      · right; simp only; omega
    · right; omega

@[simp] theorem readBytes_length (m : Memory) (off n : Nat) : (Memory.readBytes m off n).length = n := by
  induction n generalizing off with
  | zero => rfl
  | succ n ih => simp [Memory.readBytes, ih]

theorem readBytes_add (m : Memory) (off n k : Nat) :
    Memory.readBytes m off (n + k) = Memory.readBytes m off n ++ Memory.readBytes m (off + n) k := by
  induction n generalizing off with
  | zero => simp [Memory.readBytes]
  | succ n ih =>
    rw [show n + 1 + k = (n + k) + 1 by omega]
    simp [Memory.readBytes, ih, Nat.add_assoc, Nat.add_comm 1 n]

theorem readBytes_congr {m m' : Memory} {off n : Nat}
    (h : ∀ a, off ≤ a → a < off + n → Memory.read m a = Memory.read m' a) :
    Memory.readBytes m off n = Memory.readBytes m' off n := by
  induction n generalizing off with
  | zero => rfl
  | succ n ih =>
    simp only [Memory.readBytes]
    rw [h off le_rfl (by omega), ih fun a h1 h2 => h a (by omega) (by omega)]

/-- Reading back exactly what was stored. -/
theorem readBytes_eq_of_read {m : Memory} {off : Nat} {bs : List Byte}
    (h : ∀ k < bs.length, Memory.read m (off + k) = bs.getD k 0) : Memory.readBytes m off bs.length = bs := by
  induction bs generalizing off with
  | nil => rfl
  | cons b bs ih =>
    simp only [List.length_cons, Memory.readBytes]
    congr 1
    · simpa using h 0 (by simp)
    · refine ih fun k hk => ?_
      have := h (k + 1) (by simpa using hk)
      simpa [Nat.add_assoc, Nat.add_comm 1 k] using this

/-- The bytes below the store, then the stored bytes. -/
theorem readBytes_writeBytes {m : Memory} (h : Memory.wf m) (off : Nat) (bs : List Byte) :
    Memory.readBytes (Memory.writeBytes m off bs) 0 (off + bs.length) = Memory.readBytes m 0 off ++ bs := by
  rw [readBytes_add, Nat.zero_add]
  congr 1
  · refine readBytes_congr fun a _ ha => ?_
    rw [read_writeBytes h, if_neg (by omega)]
  · refine readBytes_eq_of_read fun k hk => ?_
    rw [read_writeBytes h, if_pos (by omega), Nat.add_sub_cancel_left]

/-! ### TBL -/

theorem table_read_write (t : Table) (a b : Nat) (e : TblEntry) :
    Table.read (Table.write t a e) b = if b = a then some e else Table.read t b := by
  induction t with
  | nil => simp [Table.write, Table.read, eq_comm]
  | cons x t ih =>
    obtain ⟨k, d⟩ := x
    simp only [Table.write]
    split_ifs with h1 h2 h3 <;> simp only [Table.read] <;> grind

theorem mem_table_write {t : Table} {a : Nat} {e : TblEntry} {x : Nat × TblEntry}
    (h : x ∈ Table.write t a e) : x ∈ t ∨ x = (a, e) := by
  induction t with
  | nil => simp_all [Table.write]
  | cons y t ih =>
    obtain ⟨k, d⟩ := y
    simp only [Table.write] at h
    split_ifs at h <;> simp_all <;> grind

theorem table_write_wf {t : Table} (h : Table.wf t) (a : Nat) (e : TblEntry) : Table.wf (Table.write t a e) := by
  induction t with
  | nil => simp [Table.write, Table.wf]
  | cons y t ih =>
    obtain ⟨k, d⟩ := y
    obtain ⟨hk, hp⟩ := List.pairwise_cons.1 h
    simp only [Table.write]
    split_ifs with h1 h2
    · refine List.pairwise_cons.2 ⟨?_, h⟩
      intro x hx
      rcases List.mem_cons.1 hx with rfl | hx
      · exact h1
      · exact lt_trans h1 (hk x hx)
    · subst h2
      exact List.pairwise_cons.2 ⟨hk, hp⟩
    · refine List.pairwise_cons.2 ⟨?_, ih hp⟩
      intro x hx
      rcases mem_table_write hx with hx | rfl
      · exact hk x hx
      · simp only; omega

end Sys2Proof.Machine
end

