-- ==== Sys2Proof/Laws/PerInstr.lean ====
section
/-! SUPPORT. Families of facts with one lemma per instruction. RoundTrip: the decoder reads a well-formed instruction
back from its encoding, with every operand, and leaves the bytes after it. -/

namespace Sys2Proof.Laws.RoundTrip

/-- Decoding the encoding of `i`, whatever follows it, gives `i` and what follows. -/
def Statement (i : Instr) : Prop :=
  ∀ (p : Params) (rest : List Byte), i.wf p → decodeFirst p (encode p i ++ rest) = .ok (i, rest)

/-- A sequence that begins with the magic is a wire frame (R88). -/
theorem decodeFirst_magic (p : Params) (rest : List Byte) : decodeFirst p (magic ++ rest) = decodeWireFrame rest := by
  show decodeFirst p (0x46 :: 0x4D :: 0x54 :: 0x50 :: rest) = _
  simp only [decodeFirst]
  rw [if_neg (by decide), if_neg (by decide), if_neg (by decide), if_neg (by decide)]
  exact if_pos rfl

theorem init (t w r : Bool) (u b : Nat) (c : Half) : Statement (.init t w r u b c) := by
  intro p rest hwf
  simp only [encode, List.cons_append, decodeFirst, if_true]
  exact decodeInit_eq_ok.2 ⟨t, w, r, u, b, c, rfl, hwf, rfl⟩

theorem setTable (b : Nat) (c : Half) : Statement (.setTable b c) := by
  intro p rest hwf
  simp only [encode, List.cons_append, decodeFirst]
  rw [if_neg (by decide), if_pos trivial]
  exact decodeSetTable_eq_ok.2 ⟨b, c, rfl, hwf, rfl⟩

theorem receive (bs : List Byte) : Statement (.receive bs) := by
  intro p rest hwf
  simp only [encode, List.cons_append, decodeFirst]
  rw [if_neg (by decide), if_neg (by decide), if_pos trivial]
  exact (decodeReceive_eq_ok (p := p)).2 ⟨bs, rfl, hwf, rfl⟩

theorem send (c q : Half) (bs : List Byte) : Statement (.send c q bs) := by
  intro p rest hwf
  simp only [encode, List.cons_append, decodeFirst]
  rw [if_neg (by decide), if_neg (by decide), if_neg (by decide), if_pos trivial]
  exact (decodeSend_eq_ok (p := p)).2 ⟨c, q, bs, rfl, hwf, rfl⟩

theorem frame (q : Half) (g : List Byte) (c : Byte) : Statement (.frame q g c) := by
  intro p rest hwf
  have h : encode p (.frame q g c) ++ rest = magic ++ (halfBytes q ++ countedBytes g ++ c :: rest) := by
    simp [encode, wireBytes]
  rw [h, decodeFirst_magic]
  exact (decodeWireFrame_eq_ok (p := p)).2 ⟨q, g, c, rfl, hwf, rfl⟩

end Sys2Proof.Laws.RoundTrip
end

