-- ==== Sys2Proof/Laws/State.lean ====
section
/-! SUPPORT. One lemma per field per update of State, so that no proof unfolds a record update. -/

namespace Sys2Proof.Machine

variable (s : State)

/-! ### emit -/

@[simp] theorem emit_params (o : Output) : (State.emit o s).params = s.params := rfl
@[simp] theorem emit_acc (o : Output) : (State.emit o s).acc = s.acc := rfl
@[simp] theorem emit_accLen (o : Output) : (State.emit o s).accLen = s.accLen := rfl
@[simp] theorem emit_tpWr (o : Output) : (State.emit o s).tpWr = s.tpWr := rfl
@[simp] theorem emit_tpRd (o : Output) : (State.emit o s).tpRd = s.tpRd := rfl
@[simp] theorem emit_uctx (o : Output) : (State.emit o s).uctx = s.uctx := rfl
@[simp] theorem emit_tblBase (o : Output) : (State.emit o s).tblBase = s.tblBase := rfl
@[simp] theorem emit_tblCount (o : Output) : (State.emit o s).tblCount = s.tblCount := rfl
@[simp] theorem emit_tbl (o : Output) : (State.emit o s).tbl = s.tbl := rfl
@[simp] theorem emit_inbox (o : Output) : (State.emit o s).inbox = s.inbox := rfl
@[simp] theorem emit_transport (o : Output) : (State.emit o s).transport = s.transport := rfl
@[simp] theorem emit_draws (o : Output) : (State.emit o s).draws = s.draws := rfl
@[simp] theorem emit_trace (o : Output) : (State.emit o s).trace = s.trace ++ [o] := rfl

/-! ### clearAcc -/

@[simp] theorem clearAcc_params : s.clearAcc.params = s.params := rfl
@[simp] theorem clearAcc_acc : s.clearAcc.acc = s.acc := rfl
@[simp] theorem clearAcc_accLen : s.clearAcc.accLen = 0 := rfl
@[simp] theorem clearAcc_tpWr : s.clearAcc.tpWr = s.tpWr := rfl
@[simp] theorem clearAcc_tpRd : s.clearAcc.tpRd = s.tpRd := rfl
@[simp] theorem clearAcc_uctx : s.clearAcc.uctx = s.uctx := rfl
@[simp] theorem clearAcc_tblBase : s.clearAcc.tblBase = s.tblBase := rfl
@[simp] theorem clearAcc_tblCount : s.clearAcc.tblCount = s.tblCount := rfl
@[simp] theorem clearAcc_tbl : s.clearAcc.tbl = s.tbl := rfl
@[simp] theorem clearAcc_inbox : s.clearAcc.inbox = s.inbox := rfl
@[simp] theorem clearAcc_transport : s.clearAcc.transport = s.transport := rfl
@[simp] theorem clearAcc_draws : s.clearAcc.draws = s.draws := rfl
@[simp] theorem clearAcc_trace : s.clearAcc.trace = s.trace := rfl

/-! ### installTable -/

@[simp] theorem installTable_params (b : Nat) (c : Half) : (State.installTable b c s).params = s.params := rfl
@[simp] theorem installTable_acc (b : Nat) (c : Half) : (State.installTable b c s).acc = s.acc := rfl
@[simp] theorem installTable_accLen (b : Nat) (c : Half) : (State.installTable b c s).accLen = s.accLen := rfl
@[simp] theorem installTable_tpWr (b : Nat) (c : Half) : (State.installTable b c s).tpWr = s.tpWr := rfl
@[simp] theorem installTable_tpRd (b : Nat) (c : Half) : (State.installTable b c s).tpRd = s.tpRd := rfl
@[simp] theorem installTable_uctx (b : Nat) (c : Half) : (State.installTable b c s).uctx = s.uctx := rfl
@[simp] theorem installTable_tblBase (b : Nat) (c : Half) : (State.installTable b c s).tblBase = b := rfl
@[simp] theorem installTable_tblCount (b : Nat) (c : Half) : (State.installTable b c s).tblCount = c := rfl
@[simp] theorem installTable_tbl (b : Nat) (c : Half) : (State.installTable b c s).tbl = s.tbl := rfl
@[simp] theorem installTable_inbox (b : Nat) (c : Half) : (State.installTable b c s).inbox = s.inbox := rfl
@[simp] theorem installTable_transport (b : Nat) (c : Half) : (State.installTable b c s).transport = s.transport := rfl
@[simp] theorem installTable_draws (b : Nat) (c : Half) : (State.installTable b c s).draws = s.draws := rfl
@[simp] theorem installTable_trace (b : Nat) (c : Half) : (State.installTable b c s).trace = s.trace := rfl

/-! ### hardwareReset -/

@[simp] theorem hardwareReset_params : s.hardwareReset.params = s.params := rfl
@[simp] theorem hardwareReset_acc : s.hardwareReset.acc = Memory.zeroed := rfl
@[simp] theorem hardwareReset_accLen : s.hardwareReset.accLen = 0 := rfl
@[simp] theorem hardwareReset_tpWr : s.hardwareReset.tpWr = false := rfl
@[simp] theorem hardwareReset_tpRd : s.hardwareReset.tpRd = false := rfl
@[simp] theorem hardwareReset_uctx : s.hardwareReset.uctx = 0 := rfl
@[simp] theorem hardwareReset_tblBase : s.hardwareReset.tblBase = 0 := rfl
@[simp] theorem hardwareReset_tblCount : s.hardwareReset.tblCount = 0 := rfl
@[simp] theorem hardwareReset_tbl : s.hardwareReset.tbl = s.tbl := rfl
@[simp] theorem hardwareReset_inbox : s.hardwareReset.inbox = s.inbox := rfl
@[simp] theorem hardwareReset_transport : s.hardwareReset.transport = s.transport := rfl
@[simp] theorem hardwareReset_draws : s.hardwareReset.draws = s.draws := rfl
@[simp] theorem hardwareReset_trace : s.hardwareReset.trace = s.trace := rfl

/-! ### appendFits -/

@[simp] theorem appendFits_params (bs : List Byte) : (appendFits bs s).params = s.params := rfl
@[simp] theorem appendFits_acc (bs : List Byte) : (appendFits bs s).acc = Memory.writeBytes s.acc s.accLen.toNat bs := rfl
@[simp] theorem appendFits_accLen (bs : List Byte) : (appendFits bs s).accLen = BitVec.ofNat 16 (s.accLen.toNat + bs.length) := rfl
@[simp] theorem appendFits_tpWr (bs : List Byte) : (appendFits bs s).tpWr = s.tpWr := rfl
@[simp] theorem appendFits_tpRd (bs : List Byte) : (appendFits bs s).tpRd = s.tpRd := rfl
@[simp] theorem appendFits_uctx (bs : List Byte) : (appendFits bs s).uctx = s.uctx := rfl
@[simp] theorem appendFits_tblBase (bs : List Byte) : (appendFits bs s).tblBase = s.tblBase := rfl
@[simp] theorem appendFits_tblCount (bs : List Byte) : (appendFits bs s).tblCount = s.tblCount := rfl
@[simp] theorem appendFits_tbl (bs : List Byte) : (appendFits bs s).tbl = s.tbl := rfl
@[simp] theorem appendFits_inbox (bs : List Byte) : (appendFits bs s).inbox = s.inbox := rfl
@[simp] theorem appendFits_transport (bs : List Byte) : (appendFits bs s).transport = s.transport := rfl
@[simp] theorem appendFits_draws (bs : List Byte) : (appendFits bs s).draws = s.draws := rfl
@[simp] theorem appendFits_trace (bs : List Byte) : (appendFits bs s).trace = s.trace := rfl

/-! ### raise: the error entry (R191, R192) -/

@[simp] theorem raise_accLen (c : Cause) : (State.raise c s).accLen = if c.clearsAcc then 0 else s.accLen := by
  cases c <;> rfl
@[simp] theorem raise_trace (c : Cause) : (State.raise c s).trace = s.trace ++ [c.response] := by
  cases c <;> rfl

@[simp] theorem raise_params (c : Cause) : (State.raise c s).params = s.params := by cases c <;> rfl
@[simp] theorem raise_acc (c : Cause) : (State.raise c s).acc = s.acc := by cases c <;> rfl
@[simp] theorem raise_tpWr (c : Cause) : (State.raise c s).tpWr = s.tpWr := by cases c <;> rfl
@[simp] theorem raise_tpRd (c : Cause) : (State.raise c s).tpRd = s.tpRd := by cases c <;> rfl
@[simp] theorem raise_uctx (c : Cause) : (State.raise c s).uctx = s.uctx := by cases c <;> rfl
@[simp] theorem raise_tblBase (c : Cause) : (State.raise c s).tblBase = s.tblBase := by cases c <;> rfl
@[simp] theorem raise_tblCount (c : Cause) : (State.raise c s).tblCount = s.tblCount := by cases c <;> rfl
@[simp] theorem raise_tbl (c : Cause) : (State.raise c s).tbl = s.tbl := by cases c <;> rfl
@[simp] theorem raise_inbox (c : Cause) : (State.raise c s).inbox = s.inbox := by cases c <;> rfl
@[simp] theorem raise_transport (c : Cause) : (State.raise c s).transport = s.transport := by cases c <;> rfl
@[simp] theorem raise_draws (c : Cause) : (State.raise c s).draws = s.draws := by cases c <;> rfl

/-! ### nextAnswer: only the transport's queue and the counter move (R165) -/

@[simp] theorem nextAnswer_params : s.nextAnswer.params = s.params := by
  unfold State.nextAnswer; split <;> rfl
@[simp] theorem nextAnswer_acc : s.nextAnswer.acc = s.acc := by
  unfold State.nextAnswer; split <;> rfl
@[simp] theorem nextAnswer_accLen : s.nextAnswer.accLen = s.accLen := by
  unfold State.nextAnswer; split <;> rfl
@[simp] theorem nextAnswer_tpWr : s.nextAnswer.tpWr = s.tpWr := by
  unfold State.nextAnswer; split <;> rfl
@[simp] theorem nextAnswer_tpRd : s.nextAnswer.tpRd = s.tpRd := by
  unfold State.nextAnswer; split <;> rfl
@[simp] theorem nextAnswer_uctx : s.nextAnswer.uctx = s.uctx := by
  unfold State.nextAnswer; split <;> rfl
@[simp] theorem nextAnswer_tblBase : s.nextAnswer.tblBase = s.tblBase := by
  unfold State.nextAnswer; split <;> rfl
@[simp] theorem nextAnswer_tblCount : s.nextAnswer.tblCount = s.tblCount := by
  unfold State.nextAnswer; split <;> rfl
@[simp] theorem nextAnswer_tbl : s.nextAnswer.tbl = s.tbl := by
  unfold State.nextAnswer; split <;> rfl
@[simp] theorem nextAnswer_inbox : s.nextAnswer.inbox = s.inbox := by
  unfold State.nextAnswer; split <;> rfl
@[simp] theorem nextAnswer_trace : s.nextAnswer.trace = s.trace := by
  unfold State.nextAnswer; split <;> rfl

end Sys2Proof.Machine
end

