-- ==== Sys2Proof/Laws/Receive.lean ====
section
/-! SUPPORT. What the receive path can do, said once: APPEND's effect on the buffered bytes, DECODE's exits as
conditions on those bytes, and DISPATCH as the search it is. -/

namespace Sys2Proof.Machine

@[simp] theorem buffered_length (s : State) : s.buffered.length = s.accLen.toNat := readBytes_length _ _ _

/-- The buffered bytes depend on ACC below ACC_LEN only (R21). -/
theorem buffered_congr {s t : State} (hl : s.accLen = t.accLen)
    (h : ∀ a < s.accLen.toNat, Memory.read s.acc a = Memory.read t.acc a) : s.buffered = t.buffered := by
  unfold State.buffered
  rw [← hl]
  exact readBytes_congr fun a _ ha => h a (by omega)

/-- An APPEND that fits adds to ACC_LEN without wrap (R64, R121). -/
theorem appendFits_accLen_toNat {s : State} {bs : List Byte} (h : s.params.Legal) (hr : s.HasRoomFor bs) :
    (appendFits bs s).accLen.toNat = s.accLen.toNat + bs.length := by
  obtain ⟨-, hc, -⟩ := h
  obtain ⟨-, hr⟩ := hr
  rw [appendFits_accLen, BitVec.toNat_ofNat, Nat.mod_eq_of_lt (by omega)]

/-- After an APPEND that fits, the new bytes stand behind the old ones (R65, R121). -/
theorem appendFits_buffered {s : State} {bs : List Byte} (h : s.Ready) (hr : s.HasRoomFor bs) :
    (appendFits bs s).buffered = s.joined bs := by
  unfold State.buffered State.joined
  rw [appendFits_accLen_toNat h.1 hr, appendFits_acc, readBytes_writeBytes h.2]
  rfl

/-- RECEIVE's three ways (R120). -/
theorem feed_nil (s : State) : feed [] s = State.emit (.received .ignored none) s := rfl

theorem feed_overflow {s : State} {bs : List Byte} (hne : bs ≠ [])
    (ho : s.params.capacity < s.accLen.toNat + bs.length) : feed bs s = State.raise .bufferOverflow s := by
  unfold feed
  rw [if_neg (by simpa using hne), if_pos ho]

theorem feed_fits {s : State} {bs : List Byte} (hr : s.HasRoomFor bs) : feed bs s = runDecode (appendFits bs s) := by
  unfold feed
  rw [if_neg (by simpa using hr.1), if_neg (by simpa using hr.2)]

/-- RECEIVE of bytes that fit: DECODE's exits as conditions on the old bytes followed by the new (R122). -/
theorem feed_eq {s : State} {bs : List Byte} (h : s.Ready) (hr : s.HasRoomFor bs) :
    feed bs s =
      if (s.joined bs).length < 10 then State.emit (.received .wait none) (appendFits bs s)
      else if (s.joined bs).take 4 ≠ magic then State.raise .badMagic (appendFits bs s)
      else if frameLength (s.joined bs) < 2 then State.raise .badLength (appendFits bs s)
      else if (s.joined bs).length < 9 + frameLength (s.joined bs) then
        State.emit (.received .wait none) (appendFits bs s)
      else if frameXor (s.joined bs) ≠ frameChecksum (s.joined bs) then State.raise .badChecksum (appendFits bs s)
      else extract (s.joined bs) (appendFits bs s) := by
  rw [feed_fits hr]
  unfold runDecode
  rw [appendFits_buffered h hr]
  unfold decodeBuffer minBuf minLength hdrLen
  rw [appendFits_accLen_toNat h.1 hr,
    show (s.joined bs).length = s.accLen.toNat + bs.length by simp [State.joined],
    show 8 + frameLength (s.joined bs) + 1 = 9 + frameLength (s.joined bs) by omega]

/-- One condition for each way through RECEIVE of bytes that fit. -/
theorem feed_good {s : State} {bs : List Byte} (h : s.Ready) (hr : s.HasRoomFor bs) (hg : GoodFrame (s.joined bs)) :
    feed bs s = extract (s.joined bs) (appendFits bs s) := by
  obtain ⟨h10, hm, h2, h9, hx⟩ := hg
  rw [feed_eq h hr, if_neg (by omega), if_neg (by simpa using hm), if_neg (by omega), if_neg (by omega),
    if_neg (by simpa using hx)]

theorem feed_wait {s : State} {bs : List Byte} (h : s.Ready) (hr : s.HasRoomFor bs)
    (hw : (s.joined bs).length < 10 ∨ ((s.joined bs).take 4 = magic ∧ 2 ≤ frameLength (s.joined bs) ∧
      (s.joined bs).length < 9 + frameLength (s.joined bs))) :
    feed bs s = State.emit (.received .wait none) (appendFits bs s) := by
  rw [feed_eq h hr]
  by_cases h10 : (s.joined bs).length < 10
  · rw [if_pos h10]
  · obtain ⟨hm, h2, h9⟩ := hw.resolve_left h10
    rw [if_neg h10, if_neg (by simpa using hm), if_neg (by omega), if_pos h9]

/-! ### Inversion: the ways through DECODE and RECEIVE, from any state -/

/-- The five exits of DECODE (R122). -/
theorem decodeBuffer_cases (f : List Byte) (s : State) :
    decodeBuffer f s = State.emit (.received .wait none) s ∨ decodeBuffer f s = State.raise .badMagic s ∨
    decodeBuffer f s = State.raise .badLength s ∨ decodeBuffer f s = State.raise .badChecksum s ∨
    ∃ e, decodeBuffer f s = State.emit (.received .frame e) s.clearAcc := by
  unfold decodeBuffer
  split_ifs
  · exact .inl rfl
  · exact .inr (.inl rfl)
  · exact .inr (.inr (.inl rfl))
  · exact .inl rfl
  · exact .inr (.inr (.inr (.inl rfl)))
  · exact .inr (.inr (.inr (.inr ⟨_, rfl⟩)))

/-- The seven exits of RECEIVE (R120, R136). -/
theorem feed_cases (bs : List Byte) (s : State) :
    (bs = [] ∧ feed bs s = State.emit (.received .ignored none) s) ∨
    (bs ≠ [] ∧ s.params.capacity < s.accLen.toNat + bs.length ∧ feed bs s = State.raise .bufferOverflow s) ∨
    (s.HasRoomFor bs ∧ (feed bs s = State.emit (.received .wait none) (appendFits bs s) ∨
      feed bs s = State.raise .badMagic (appendFits bs s) ∨ feed bs s = State.raise .badLength (appendFits bs s) ∨
      feed bs s = State.raise .badChecksum (appendFits bs s) ∨
      ∃ e, feed bs s = State.emit (.received .frame e) (appendFits bs s).clearAcc)) := by
  by_cases hne : bs = []
  · subst hne; exact .inl ⟨rfl, rfl⟩
  · by_cases ho : s.params.capacity < s.accLen.toNat + bs.length
    · exact .inr (.inl ⟨hne, ho, feed_overflow hne ho⟩)
    · have hr : s.HasRoomFor bs := ⟨hne, by omega⟩
      refine .inr (.inr ⟨hr, ?_⟩)
      rw [feed_fits hr]
      exact decodeBuffer_cases _ _

/-- With an empty accumulator DECODE sees just the new bytes. -/
theorem joined_of_empty {s : State} (h : s.accLen = 0) (bs : List Byte) : s.joined bs = bs := by
  have : s.buffered = [] := by unfold State.buffered; rw [h]; rfl
  simp [State.joined, this]

/-! ### DISPATCH -/

/-- The search's answer: none when no entry from `i` on has the id, else the first that has it (R151). -/
theorem findEntry_spec (s : State) (id : Half) (i n : Nat) :
    (findEntry s id i n = none ∧ ∀ k < n, (s.activeEntry (i + k)).id ≠ id) ∨
      ∃ k < n, (s.activeEntry (i + k)).id = id ∧ (∀ j < k, (s.activeEntry (i + j)).id ≠ id) ∧
        findEntry s id i n = some (s.activeEntry (i + k)) := by
  induction n generalizing i with
  | zero => exact .inl ⟨rfl, by simp⟩
  | succ n ih =>
    simp only [findEntry]
    by_cases h : (s.activeEntry i).id = id
    · exact .inr ⟨0, by omega, h, by simp, by rw [if_pos h]; rfl⟩
    · rw [if_neg h]
      rcases ih (i + 1) with ⟨hn, hk⟩ | ⟨k, hk, hid, hj, he⟩
      · refine .inl ⟨hn, fun k hkn => ?_⟩
        cases k with
        | zero => exact h
        | succ k => rw [show i + (k + 1) = i + 1 + k by omega]; exact hk k (by omega)
      · refine .inr ⟨k + 1, by omega, ?_, ?_, ?_⟩
        · rw [show i + (k + 1) = i + 1 + k by omega]; exact hid
        · intro j hjk
          cases j with
          | zero => exact h
          | succ j => rw [show i + (j + 1) = i + 1 + j by omega]; exact hj j (by omega)
        · rw [show i + (k + 1) = i + 1 + k by omega]; exact he

/-- DISPATCH meets R151 to R153. -/
theorem dispatch_spec (s : State) (id : Half) (payload : List Byte) :
    DispatchedAs s id payload (dispatch id payload (BitVec.ofNat 16 payload.length) s.uctx s) := by
  unfold DispatchedAs dispatch
  rcases findEntry_spec s id 0 s.tblCount.toNat with ⟨hn, hk⟩ | ⟨k, hk, hid, hj, he⟩
  · simp only [Nat.zero_add] at hk
    exact .inl ⟨by rw [hn]; rfl, hk⟩
  · simp only [Nat.zero_add] at hid hj he
    exact .inr ⟨k, hk, hid, hj, by rw [he]; rfl⟩

theorem activeEntry_congr {s t : State} (hp : s.params = t.params) (hb : s.tblBase = t.tblBase) (ht : s.tbl = t.tbl)
    (i : Nat) : s.activeEntry i = t.activeEntry i := by
  unfold State.activeEntry State.entryAt
  rw [hp, hb, ht]

/-- The search reads the table reference, TBL and the parameters, and nothing else of the state (R155). -/
theorem findEntry_congr {s t : State} (hp : s.params = t.params) (hb : s.tblBase = t.tblBase) (ht : s.tbl = t.tbl)
    (id : Half) (i n : Nat) : findEntry s id i n = findEntry t id i n := by
  induction n generalizing i with
  | zero => rfl
  | succ n ih => simp only [findEntry, ih, activeEntry_congr hp hb ht]

/-- The payload of a frame that is complete has `length - 2` bytes (R71, R129). -/
theorem framePayload_length {f : List Byte} (h2 : 2 ≤ frameLength f) (h9 : 9 + frameLength f ≤ f.length) :
    (framePayload f).length = frameLength f - 2 := by
  simp only [framePayload, List.length_take, List.length_drop]
  omega

/-- What an extraction leaves and shows (R129, R130). -/
theorem extract_spec {f : List Byte} (s : State) (h2 : 2 ≤ frameLength f) (h9 : 9 + frameLength f ≤ f.length) :
    ∃ e, extract f s = State.emit (.received .frame e) s.clearAcc ∧
      DispatchedAs s (frameCommandId f) (framePayload f) e := by
  refine ⟨_, rfl, ?_⟩
  rw [← framePayload_length h2 h9]
  exact dispatch_spec s (frameCommandId f) (framePayload f)

/-- DISPATCH does not look at the accumulator or the trace. -/
theorem dispatchedAs_appendFits (bs : List Byte) (s : State) (id : Half) (payload : List Byte) (e : Option DispatchEvent) :
    DispatchedAs (appendFits bs s) id payload e ↔ DispatchedAs s id payload e := Iff.rfl

/-! ### Frames in a longer sequence -/

/-- The header fields of a sequence of 10 or more bytes do not change when bytes follow (R127, R135). -/
theorem byteAt_append {a : List Byte} (b : List Byte) {i : Nat} (h : i < a.length) : byteAt (a ++ b) i = byteAt a i := by
  simp [byteAt, List.getElem?_append_left h]

theorem frameLength_append {a : List Byte} (b : List Byte) (h : 8 ≤ a.length) : frameLength (a ++ b) = frameLength a := by
  simp [frameLength, halfAt, byteAt_append b (show 6 < a.length by omega), byteAt_append b (show 7 < a.length by omega)]

theorem take4_append {a : List Byte} (b : List Byte) (h : 4 ≤ a.length) : (a ++ b).take 4 = a.take 4 :=
  List.take_append_of_le_length h

/-! ### FRAME -/

/-- The whole frame is `9 + length` bytes (R72). -/
@[simp] theorem wireBytes_length (q : Half) (g : List Byte) (c : Byte) : (wireBytes q g c).length = g.length + 9 := by
  simp [wireBytes, countedBytes, halfBytes, magic]

/-- A frame one RECEIVE can carry is one RECEIVE. -/
theorem deliver_one {bytes : List Byte} (h : bytes.length ≤ 65535) (s : State) : deliver bytes s = feed bytes s :=
  if_pos h

/-- A longer one is two, the first of 65535 bytes (R9). -/
theorem deliver_two {bytes : List Byte} (h : 65535 < bytes.length) (s : State) :
    deliver bytes s = feed (bytes.drop 65535) (feed (bytes.take 65535) s) :=
  if_neg (Nat.not_le.2 h)

/-- What every RECEIVE keeps, a FRAME keeps. -/
theorem deliver_keeps {P : State → Prop} (h : ∀ bs s, P s → P (feed bs s)) (bytes : List Byte) {s : State} (hs : P s) :
    P (deliver bytes s) := by
  unfold deliver
  split_ifs
  · exact h _ _ hs
  · exact h _ _ (h _ _ hs)

end Sys2Proof.Machine
end

