-- ==== Sys2Proof/Laws/Send.lean ====
section
/-! SUPPORT. The frame ENCODE builds, field by field (R71, R161). -/

namespace Sys2Proof.Machine

/-- The ten bytes before the payload. -/
theorem frameBody_eq (cmdId seqType : Half) (payload : List Byte) :
    frameBody cmdId seqType payload =
      0x46 :: 0x4D :: 0x54 :: 0x50 :: lo8 seqType :: hi8 seqType ::
        lo8 (BitVec.ofNat 16 (payload.length + 2)) :: hi8 (BitVec.ofNat 16 (payload.length + 2)) ::
        lo8 cmdId :: hi8 cmdId :: payload := rfl

@[simp] theorem frameBody_length (cmdId seqType : Half) (payload : List Byte) :
    (frameBody cmdId seqType payload).length = payload.length + 10 := by
  simp [frameBody_eq]

@[simp] theorem encodeFrame_length (cmdId seqType : Half) (payload : List Byte) :
    (encodeFrame cmdId seqType payload).length = payload.length + 11 := by
  simp [encodeFrame]

/-- Whatever byte closes it, a sequence that begins with an encoder's body has that body's fields (R71). -/
theorem body_fields {cmdId seqType : Half} {payload : List Byte} (h : payload.length + 11 ≤ 65535) (x : List Byte) :
    (frameBody cmdId seqType payload ++ x).take 4 = magic ∧
    frameSeqType (frameBody cmdId seqType payload ++ x) = seqType.toInt ∧
    frameLength (frameBody cmdId seqType payload ++ x) = payload.length + 2 ∧
    frameCommandId (frameBody cmdId seqType payload ++ x) = cmdId ∧
    framePayload (frameBody cmdId seqType payload ++ x) = payload ∧
    frameXor (frameBody cmdId seqType payload ++ x) = xor8 (frameBody cmdId seqType payload) := by
  have hl : frameLength (frameBody cmdId seqType payload ++ x) = payload.length + 2 := by
    rw [frameBody_eq]
    simp only [frameLength, halfAt, byteAt, List.cons_append, List.getD_cons_succ, List.getD_cons_zero, le16_lo8_hi8,
      BitVec.toNat_ofNat]
    omega
  refine ⟨rfl, ?_, hl, ?_, ?_, ?_⟩
  · rw [frameBody_eq]; simp [frameSeqType, halfAt, byteAt]
  · rw [frameBody_eq]; simp [frameCommandId, halfAt, byteAt]
  · unfold framePayload
    rw [hl, frameBody_eq]
    simp
  · unfold frameXor hdrLen
    rw [hl, show 8 + (payload.length + 2) = (frameBody cmdId seqType payload).length by simp; omega]
    simp

theorem body_checksum {cmdId seqType : Half} {payload : List Byte} (h : payload.length + 11 ≤ 65535) (c : Byte)
    (x : List Byte) : frameChecksum (frameBody cmdId seqType payload ++ c :: x) = c := by
  unfold frameChecksum hdrLen byteAt
  rw [(body_fields h (c :: x)).2.2.1,
    show 8 + (payload.length + 2) = (frameBody cmdId seqType payload).length by simp; omega]
  simp

/-- The fields of an encoded frame, whatever follows it (R71). -/
theorem encodeFrame_fields {cmdId seqType : Half} {payload : List Byte} (h : payload.length + 11 ≤ 65535)
    (x : List Byte) :
    frameSeqType (encodeFrame cmdId seqType payload ++ x) = seqType.toInt ∧
    frameLength (encodeFrame cmdId seqType payload ++ x) = payload.length + 2 ∧
    frameCommandId (encodeFrame cmdId seqType payload ++ x) = cmdId ∧
    framePayload (encodeFrame cmdId seqType payload ++ x) = payload := by
  unfold encodeFrame
  rw [List.append_assoc]
  obtain ⟨-, hq, hl, hc, hp, -⟩ := body_fields (cmdId := cmdId) (seqType := seqType) h
    ([xor8 (frameBody cmdId seqType payload)] ++ x)
  exact ⟨hq, hl, hc, hp⟩

/-- What ENCODE builds is a good frame, whatever follows it. -/
theorem encodeFrame_good {cmdId seqType : Half} {payload : List Byte} (h : payload.length + 11 ≤ 65535)
    (x : List Byte) : GoodFrame (encodeFrame cmdId seqType payload ++ x) := by
  unfold encodeFrame
  rw [List.append_assoc, List.singleton_append]
  obtain ⟨hm, -, hl, -, -, hx⟩ := body_fields (cmdId := cmdId) (seqType := seqType) h
    (xor8 (frameBody cmdId seqType payload) :: x)
  refine ⟨by simp; omega, hm, by omega, ?_, ?_⟩
  · rw [hl]; simp; omega
  · rw [hx, body_checksum h]

end Sys2Proof.Machine
end

