-- ==== Sys2Proof/Tests/Slice0.lean ====
section
/-! SUPPORT. Tests: the well-formedness smoke, words written out from the encodings, vectors of spec/95_test_vectors.md,
and a witness for the hypotheses of every statement. -/

namespace Sys2Proof.Tests

open Sys2Proof.Machine

/-! ### WellFormed: an ill-formed term for each check -/

theorem test_init_wide_context_refused : Instr.wf Params.vectors (.init true true true (2 ^ 32) 0 0) = false := by decide
theorem test_init_wide_base_refused : Instr.wf Params.vectors (.init true true true 0 256 0) = false := by decide
theorem test_setTable_wide_base_refused : Instr.wf Params.vectors (.setTable 256 0) = false := by decide
theorem test_receive_long_refused (bytes : List Byte) (h : bytes.length = 65536) :
    Instr.wf Params.vectors (.receive bytes) = false := by simp [Instr.wf, FitsCount, h]
theorem test_send_long_refused (bytes : List Byte) (h : bytes.length = 65536) :
    Instr.wf Params.vectors (.send 0 0 bytes) = false := by simp [Instr.wf, FitsCount, h]
theorem test_frame_long_refused (bytes : List Byte) (h : bytes.length = 65536) :
    Instr.wf Params.vectors (.frame 0 bytes 0) = false := by simp [Instr.wf, FitsCount, h]

/-! ### Decoding, from R80 (op in bits 1:0), R81 (field order) and R70; V1's frame is byte for byte the spec's -/

theorem test_decode_init : decode Params.vectors [0x00, 0x05, 0x44, 0x33, 0x22, 0x11, 0x10, 0x01, 0x02] =
    .ok (.init true false true 0x11223344 0x10 0x0201) := by rfl
theorem test_decode_setTable : decode Params.vectors [0x01, 0xFE, 0x03, 0x01] = .ok (.setTable 0xFE 0x0103) := by rfl
theorem test_decode_receive : decode Params.vectors [0x02, 0x03, 0x00, 0xAA, 0xBB, 0xCC] =
    .ok (.receive [0xAA, 0xBB, 0xCC]) := by rfl
theorem test_decode_send : decode Params.vectors [0x03, 0x34, 0x12, 0xFF, 0x7F, 0x01, 0x00, 0x46] =
    .ok (.send 0x1234 0x7FFF [0x46]) := by rfl
theorem test_decode_frame :
    decode Params.vectors [0x46, 0x4D, 0x54, 0x50, 0x00, 0x80, 0x02, 0x00, 0xFF, 0xFE, 0x8C] =
      .ok (.frame 0x8000 [0xFF, 0xFE] 0x8C) := by rfl

theorem test_decode_empty : decode Params.vectors [] = .error .empty := by rfl
theorem test_decode_unknown : decode Params.vectors [0x46, 0x4D, 0x54, 0x51, 0x00] = .error .unknownRequest := by rfl
theorem test_decode_truncated : decode Params.vectors [0x02, 0x03, 0x00, 0xAA] = .error .truncated := by rfl
theorem test_decode_reservedBits : decode Params.vectors [0x00, 0x08] = .error .reservedBits := by rfl
theorem test_decode_wide : decode { Params.vectors with tblAw := 4 } [0x01, 0x10, 0x00, 0x00] = .error .valueTooWide := by rfl
theorem test_decode_trailing : decode Params.vectors [0x01, 0x10, 0x00, 0x00, 0x00] = .error .trailing := by rfl

/-- The five rows of the opcode table, by their match words. -/
theorem test_table_words :
    decodeTableWord 8 0 = some (.init false false false 0 0 0) ∧ decodeTableWord 8 1 = some (.setTable 0 0) ∧
    decodeTableWord 8 2 = some (.receive []) ∧ decodeTableWord 8 3 = some (.send 0 0 []) ∧
    decodeTableWord 32 0x464D5450 = some (.frame 0 [] 0) := by decide

/-- Each row runs as the first operation after reset. -/
theorem test_rows_run_after_reset :
    (step (State.reset.withFetchWord 8 0) = exec (.init false false false 0 0 0) State.reset) ∧
    (step (State.reset.withFetchWord 8 1) = exec (.setTable 0 0) State.reset) ∧
    (step (State.reset.withFetchWord 8 2) = exec (.receive []) State.reset) ∧
    (step (State.reset.withFetchWord 8 3) = exec (.send 0 0 []) State.reset) ∧
    (step (State.reset.withFetchWord 32 0x464D5450) = exec (.frame 0 [] 0) State.reset) := by
  refine ⟨?_, ?_, ?_, ?_, ?_⟩ <;> rfl

/-! ### Vectors (spec/95_test_vectors.md); handler tokens H_ping = 1, H_a = 2, H_b = 3 -/

/-- The block of the vectors: table T3 at 0x10, UCTX = 0xC0FFEE00. -/
def block : State :=
  { State.reset with
    tpWr := true, tpRd := true, uctx := 0xC0FFEE00, tblBase := 0x10, tblCount := 3
    tbl := [(0x10, ⟨0x0001, 1⟩), (0x11, ⟨0x0004, 2⟩), (0x12, ⟨0x0004, 3⟩)] }

/-- The same block with bytes already buffered. -/
def holding (bytes : List Byte) : State :=
  { block with acc := Memory.writeBytes [] 0 bytes, accLen := BitVec.ofNat 16 bytes.length }

/-- F1, the E1 frame. -/
def f1 : List Byte := [0x46, 0x4D, 0x54, 0x50, 0x00, 0x00, 0x04, 0x00, 0x01, 0x00, 0xAA, 0xBB, 0x1B]

/-- F2, the E2 frame. -/
def f2 : List Byte := [0x46, 0x4D, 0x54, 0x50, 0xFF, 0xFF, 0x02, 0x00, 0x04, 0x00, 0x09]

/-- The first 30 bytes of R-14: a header that announces a frame of 49 bytes. -/
def r14 : List Byte := [0x46, 0x4D, 0x54, 0x50, 0x00, 0x00, 0x28, 0x00] ++ List.replicate 22 0

/-- C-2: a partial frame is lost. -/
theorem test_init_C2 : exec (.init true false false 0x11 0x40 0) (holding (f1.take 12)) =
    .next { block with tpWr := false, tpRd := false, uctx := 0x11, tblBase := 0x40, tblCount := 0, trace := [.completed] } := by
  rfl

/-- C-3: a null transport changes nothing. -/
theorem test_init_C3 : exec (.init false false false 0x11 0x40 0) (holding (f1.take 12)) =
    .next { holding (f1.take 12) with trace := [.completed] } := by rfl

/-- C-4. -/
theorem test_setTable_C4 : exec (.setTable 0x40 1) (holding (f1.take 7)) =
    .next { holding (f1.take 7) with tblBase := 0x40, tblCount := 1, trace := [.completed] } := by rfl

/-- R-13: F2 then F1; the first entry with id 4 is H_a, and F1 is lost. -/
theorem test_receive_R13 : (feed (f2 ++ f1) block).trace = [.received .frame (some ⟨2, 0x0004, [], 0, 0xC0FFEE00⟩)] ∧
    (feed (f2 ++ f1) block).accLen = 0 := by decide

/-- R-7b: `length = 1` and a wrong last byte is RX_BAD_LENGTH. -/
theorem test_receive_R7b :
    (feed [0x46, 0x4D, 0x54, 0x50, 0x00, 0x00, 0x01, 0x00, 0x55, 0x00] block).trace = [.received .badLength none] := by decide

/-- S-2: the transport's error comes back verbatim with E2's bytes. -/
theorem test_send_S2 : exec (.send 0x0004 0xFFFF []) { block with transport := [-5] } =
    .next { block with trace := [.sent .sent (-5) (some ⟨f2, 11, 0xC0FFEE00⟩)] } := by rfl

/-- S-7: both checks fail; the size check is first. -/
theorem test_send_S7 : exec (.send 0 0 (List.replicate 22 0)) { block with tpWr := false } =
    .next { block with tpWr := false, trace := [.sent .tooLarge 0 none] } := by rfl

/-- V1, as the frame itself. -/
theorem test_frame_V1 : exec (.frame 0 [0x01, 0x00, 0xAA, 0xBB] 0x1B) block = .next (feed f1 block) ∧
    (feed f1 block).trace = [.received .frame (some ⟨1, 0x0001, [0xAA, 0xBB], 2, 0xC0FFEE00⟩)] := by
  exact ⟨by rfl, by decide⟩

/-- D-5: the third entry of a table at 0xFE is at address 0 (R57). -/
theorem test_dispatch_D5 :
    (feed f1 { block with tblBase := 0xFE, tbl := [(0, ⟨0x0001, 7⟩), (0xFE, ⟨0x0009, 5⟩), (0xFF, ⟨0x0008, 6⟩)] }).trace =
      [.received .frame (some ⟨7, 0x0001, [0xAA, 0xBB], 2, 0xC0FFEE00⟩)] := by decide

/-- R-14c: 33 bytes in all overflow, old and new together. -/
theorem test_receive_R14c : (feed [0x03] (holding (r14 ++ [0x01, 0x02]))).trace = [.received .overflow none] := by decide

/-- E6's checksum. -/
theorem test_encode_E6 : (encodeFrame 0x0102 7 ((List.range 21).map fun k => BitVec.ofNat 8 (k + 1))).getLast? = some 0x1D := by
  decide

/-! ### Witnesses: the hypotheses of each statement hold together somewhere -/

theorem witness_HardwareResetFromAnyState :
    { holding f1 with inbox := [.reset, .operation f2] }.inbox = .reset :: [.operation f2] := by rfl

theorem witness_InitForgetsTheBlock : ∃ s s' : State, s ≠ s' ∧ s'.params = s.params ∧ s'.tbl = s.tbl ∧
    s'.inbox = s.inbox ∧ s'.transport = s.transport ∧ s'.draws = s.draws ∧ s'.trace = s.trace :=
  ⟨block, holding f2, by decide, rfl, rfl, rfl, rfl, rfl, rfl⟩

/-- 30 + 3 > 32: the overflow clause, one byte past the boundary. -/
theorem witness_AppendOverflows : (holding r14).Ready ∧ ([0x01, 0x02, 0x03] : List Byte) ≠ [] ∧
    (holding r14).accLen.toNat + 3 > (holding r14).params.capacity := by decide

/-- 30 + 2 = 32: the clause of bytes that fit, at the boundary. -/
theorem witness_AppendFits : (holding r14).Ready ∧ ([0x01, 0x02] : List Byte) ≠ [] ∧
    (holding r14).accLen.toNat + 2 = (holding r14).params.capacity := by decide

theorem witness_ReceiveFrame : Memory.wf (holding r14).acc ∧ (holding r14).HasRoomFor [0x01, 0x02] ∧
    ¬ (holding r14).HasRoomFor [0x01, 0x02, 0x03] ∧ ¬ (holding r14).HasRoomFor [] := by decide

theorem witness_WaitsForTenBytes : (holding (f1.take 7)).Ready ∧ (holding (f1.take 7)).HasRoomFor [0x00, 0x01] ∧
    ((holding (f1.take 7)).joined [0x00, 0x01]).length = 9 := by decide

theorem witness_BadMagicClears : block.Ready ∧ block.HasRoomFor [0x46, 0x4D, 0x54, 0x51, 0, 0, 0, 0, 0, 0] ∧
    (block.joined [0x46, 0x4D, 0x54, 0x51, 0, 0, 0, 0, 0, 0]).length = 10 ∧
    (block.joined [0x46, 0x4D, 0x54, 0x51, 0, 0, 0, 0, 0, 0]).take 4 ≠ [0x46, 0x4D, 0x54, 0x50] := by decide

/-- `length = 1`, the largest malformed value. -/
theorem witness_BadLengthClears : block.Ready ∧ block.HasRoomFor [0x46, 0x4D, 0x54, 0x50, 0, 0, 1, 0, 0x55, 0] ∧
    10 ≤ (block.joined [0x46, 0x4D, 0x54, 0x50, 0, 0, 1, 0, 0x55, 0]).length ∧
    (block.joined [0x46, 0x4D, 0x54, 0x50, 0, 0, 1, 0, 0x55, 0]).take 4 = [0x46, 0x4D, 0x54, 0x50] ∧
    frameLength (block.joined [0x46, 0x4D, 0x54, 0x50, 0, 0, 1, 0, 0x55, 0]) = 1 := by decide

/-- R-8: one byte short of F1. -/
theorem witness_WaitsForTheWholeFrame : block.Ready ∧ block.HasRoomFor (f1.take 12) ∧
    10 ≤ (block.joined (f1.take 12)).length ∧ (block.joined (f1.take 12)).take 4 = [0x46, 0x4D, 0x54, 0x50] ∧
    2 ≤ frameLength (block.joined (f1.take 12)) ∧
    (block.joined (f1.take 12)).length + 1 = 9 + frameLength (block.joined (f1.take 12)) := by decide

/-- R-9. -/
theorem witness_BadChecksumClears : block.Ready ∧ block.HasRoomFor (f1.take 12 ++ [0x1A]) ∧
    10 ≤ (block.joined (f1.take 12 ++ [0x1A])).length ∧
    (block.joined (f1.take 12 ++ [0x1A])).take 4 = [0x46, 0x4D, 0x54, 0x50] ∧
    2 ≤ frameLength (block.joined (f1.take 12 ++ [0x1A])) ∧
    9 + frameLength (block.joined (f1.take 12 ++ [0x1A])) ≤ (block.joined (f1.take 12 ++ [0x1A])).length ∧
    xor8 ((block.joined (f1.take 12 ++ [0x1A])).take (8 + frameLength (block.joined (f1.take 12 ++ [0x1A])))) ≠
      byteAt (block.joined (f1.take 12 ++ [0x1A])) (8 + frameLength (block.joined (f1.take 12 ++ [0x1A]))) := by decide

/-- R-8b, the frame completed by its last byte. -/
theorem witness_GoodFrameIsDispatched : (holding (f1.take 12)).Ready ∧ (holding (f1.take 12)).HasRoomFor [0x1B] ∧
    GoodFrame ((holding (f1.take 12)).joined [0x1B]) := by decide

/-- R-14, then R-14b (both bytes fit) and R-15 (three do not). -/
theorem witness_FrameTooLongNeverDispatches : (holding r14).Ready ∧ 10 ≤ (holding r14).accLen.toNat ∧
    (holding r14).buffered.take 4 = magic ∧ (holding r14).params.capacity < 9 + frameLength (holding r14).buffered ∧
    (holding r14).accLen.toNat + 2 ≤ (holding r14).params.capacity ∧
    (holding r14).params.capacity < (holding r14).accLen.toNat + 3 := by decide

/-- R-12 is 24 bytes; here the payloads fill CAPACITY. -/
theorem witness_SecondFrameIsLost : block.Ready ∧ block.accLen = 0 ∧
    (List.replicate 5 (0 : Byte)).length + (List.replicate 5 (0 : Byte)).length + 22 ≤ block.params.capacity := by decide

theorem witness_SplittingAReceiveAtAWait : block.Ready ∧ f1.take 12 ≠ [] ∧ ([0x1B] : List Byte) ≠ [] ∧
    exec (.receive (f1.take 12)) block = .next (feed (f1.take 12) block) ∧
    (feed (f1.take 12) block).trace = block.trace ++ [.received .wait none] :=
  ⟨by decide, by decide, by decide, rfl, by decide⟩

theorem witness_BodyNeverReportsAHeaderError : (holding (f1.take 10)).Inv ∧ (holding (f1.take 10)).rxPhase = .body := by
  decide

/-- The three phases a RECEIVE can leave: HEADER at 9 bytes, BODY at 10, EMPTY after the frame. -/
theorem witness_StatusDecidesThePhase : block.params.Legal ∧ (feed (f1.take 9) block).rxPhase = .header ∧
    (feed (f1.take 10) block).rxPhase = .body ∧ (feed f1 block).rxPhase = .empty := by decide

theorem witness_LongTableRevisitsEntries :
    2 ^ ({ block with tblCount := 257 } : State).params.tblAw < ({ block with tblCount := 257 } : State).tblCount.toNat := by
  decide

theorem witness_EmptyTableDispatchesNothing : ({ block with tblCount := 0 } : State).Ready ∧
    ({ block with tblCount := 0 } : State).HasRoomFor f1 ∧
    GoodFrame (({ block with tblCount := 0 } : State).joined f1) ∧ ({ block with tblCount := 0 } : State).tblCount = 0 := by
  decide

/-- Program 2's swap: F2's last bytes arrive after it. -/
theorem witness_SwapTakesEffectForAFrameInFlight : (holding (f2.take 7)).Ready ∧
    (holding (f2.take 7)).HasRoomFor (f2.drop 7) ∧ GoodFrame ((holding (f2.take 7)).joined (f2.drop 7)) := by decide

/-- S-4: the largest payload; one answer queued, and none. -/
theorem witness_SendHandsOverTheFrame : (List.replicate 21 (0 : Byte)).length + 11 = block.params.capacity ∧
    block.tpWr = true ∧ ({ block with transport := [-5] } : State).transport = -5 :: [] ∧ block.transport = [] := by decide

/-- S-5 and S-6: one byte too many, and the largest payload with no transport. -/
theorem witness_SendRejections : (List.replicate 22 (0 : Byte)).length + 11 > block.params.capacity ∧
    (List.replicate 21 (0 : Byte)).length + 11 ≤ block.params.capacity ∧
    ({ block with tpWr := false } : State).tpWr = false := by decide

theorem witness_EncodedFieldsReadBack : ([0xAA, 0xBB] : List Byte).length + 11 ≤ 65535 := by decide

theorem witness_EncodedFrameXorsToZero : ([] : List Byte).length + 11 ≤ 65535 := by decide

/-- Program 2's cut. -/
theorem witness_RoundTripInAnyPieces : block.Ready ∧ block.accLen = 0 ∧
    ([0xAA, 0xBB] : List Byte).length + 11 ≤ block.params.capacity ∧ (∀ x ∈ [f1.take 7, f1.drop 7], x ≠ []) ∧
    [f1.take 7, f1.drop 7].flatten = encodeFrame 0x0001 0 [0xAA, 0xBB] := by decide

/-- Program 4: two blocks of equal CAPACITY, the largest payload. -/
theorem witness_SentFrameIsReceivedByAnotherBlock :
    (List.replicate 21 (0 : Byte)).length + 11 ≤ block.params.capacity ∧ block.tpWr = true ∧
    ({ State.reset with uctx := 0xB } : State).Ready ∧ ({ State.reset with uctx := 0xB } : State).accLen = 0 ∧
    block.params.capacity ≤ ({ State.reset with uctx := 0xB } : State).params.capacity := by decide

/-- R-10: one payload bit wrong. -/
theorem witness_OneChangedPayloadByteIsDetected : (0 : Nat) < ([0xAA, 0xBB] : List Byte).length ∧ block.Ready ∧
    block.accLen = 0 ∧ ([0xAA, 0xBB] : List Byte).length + 11 ≤ block.params.capacity ∧
    ([0xAA, 0xBB] : List Byte)[0] ≠ 0xAB := by decide

/-- The four clauses: V1's frame, the same with a wrong checksum, regions of one byte and of none; and the largest
region that fits. -/
theorem witness_FrameAloneIsJudged : block.Ready ∧ block.accLen = 0 ∧
    (List.replicate 23 (0 : Byte)).length + 9 = block.params.capacity ∧
    2 ≤ ([0x01, 0x00, 0xAA, 0xBB] : List Byte).length ∧
    0x1B = xor8 (magic ++ halfBytes 0 ++ countedBytes [0x01, 0x00, 0xAA, 0xBB]) ∧
    0x1A ≠ xor8 (magic ++ halfBytes 0 ++ countedBytes [0x01, 0x00, 0xAA, 0xBB]) ∧
    ([0x55] : List Byte).length = 1 ∧ ([] : List Byte).length = 0 := by decide

/-- The two clauses where they meet: the longest frame one RECEIVE carries and the shortest that needs two. -/
theorem witness_FrameArrivesAsItsBytes :
    (List.replicate 65526 (0 : Byte)).length + 9 ≤ 65535 ∧ 65535 < (List.replicate 65527 (0 : Byte)).length + 9 := by
  simp only [List.length_replicate]
  decide

/-- The two clauses of the count of responses: V1's frame, and the shortest frame that needs two RECEIVEs. -/
theorem witness_EveryOperationCompletes :
    (∀ q g c, Instr.frame 0 [0x01, 0x00, 0xAA, 0xBB] 0x1B = .frame q g c → g.length + 9 ≤ 65535) ∧
    Instr.frame 0 (List.replicate 65527 0) 0 = .frame 0 (List.replicate 65527 0) 0 ∧
    65535 < (List.replicate 65527 (0 : Byte)).length + 9 := by
  refine ⟨?_, rfl, by simp only [List.length_replicate]; decide⟩
  intro q g c h
  cases h
  decide

/-- The two clauses, at the shortest such frame and at the longest: the first 65535 bytes do not fit, or they do. -/
theorem witness_FrameLongerThanOneReceive :
    (block.Ready ∧ ¬ (block.accLen = 0 ∧ block.params.capacity = 65535)) ∧
    (({ block with params := { Params.vectors with capacity := 65535 } } : State).Ready ∧
      ({ block with params := { Params.vectors with capacity := 65535 } } : State).accLen = 0) ∧
    (65535 < (List.replicate 65527 (0 : Byte)).length + 9 ∧ (List.replicate 65527 (0 : Byte)).length < 65536) ∧
    65535 < (List.replicate 65535 (0 : Byte)).length + 9 ∧ (List.replicate 65535 (0 : Byte)).length < 65536 := by
  simp only [List.length_replicate]
  decide

theorem witness_OutputsFitTheirFields : (holding (f1.take 12)).Inv ∧
    Instr.wf (holding (f1.take 12)).params (.receive [0x1B]) = true := by decide

theorem witness_AccessSummary : (∀ wr rd u b c, Instr.send 4 0xFFFF [] ≠ .init true wr rd u b c) ∧
    (∀ b c, Instr.send 4 0xFFFF [] ≠ .setTable b c) ∧ (∀ bytes, Instr.send 4 0xFFFF [] ≠ .receive bytes) ∧
    ∀ q g c, Instr.send 4 0xFFFF [] ≠ .frame q g c := by simp

theorem witness_StepKeepsTheInvariant :
    ({ holding (f1.take 10) with inbox := [.writeTable 0x40 0x00090004] } : State).Inv ∧
    step { holding (f1.take 10) with inbox := [.writeTable 0x40 0x00090004] } =
      .next { holding (f1.take 10) with tbl := block.tbl ++ [(0x40, ⟨0x0004, 9⟩)] } :=
  ⟨by decide, rfl⟩

/-- Two states that differ in the byte just above ACC_LEN. -/
theorem witness_DeadBytesAreUnobservable :
    Memory.wf (holding [0x46]).acc ∧ Memory.wf (Memory.write (holding [0x46]).acc 1 0x99) ∧
    SameToTheHost (holding [0x46]) { holding [0x46] with acc := Memory.write (holding [0x46]).acc 1 0x99 } :=
  ⟨by decide, by decide, rfl, by decide⟩

theorem witness_StepRunsTheDecodedInstruction :
    ({ block with inbox := [.operation [0x01, 0x40, 0x01, 0x00]] } : State).inbox =
      .operation [0x01, 0x40, 0x01, 0x00] :: [] ∧
    decode block.params [0x01, 0x40, 0x01, 0x00] = .ok (.setTable 0x40 1) := ⟨rfl, rfl⟩

theorem witness_DecodeIsTheInverseOfEncode : Instr.wf Params.vectors (.init true true true (2 ^ 32 - 1) 255 0xFFFF) = true := by
  decide

theorem witness_IdleKeepsTheState : block.inbox = [] := by rfl

theorem witness_OverlapIsRefused : ({ block with inbox := [.overlap f1 f2] } : State).inbox = .overlap f1 f2 :: [] := by rfl

/-- The last entry address and the first that TBL does not have. -/
theorem witness_HostWriteIsSeen :
    ({ block with inbox := [.writeTable 255 0] } : State).inbox = .writeTable 255 0 :: [] ∧
    255 < 2 ^ block.params.tblAw ∧
    ({ block with inbox := [.writeTable 256 0] } : State).inbox = .writeTable 256 0 :: [] ∧
    2 ^ block.params.tblAw ≤ 256 := ⟨rfl, by decide, rfl, by decide⟩

end Sys2Proof.Tests
end

section
/-! The fields of a wire frame and of its first bytes, and a FRAME that one RECEIVE cannot carry (R70, R71, R134, log entry 8). -/

namespace Sys2Proof.Machine

/-! ### The fields of a wire frame (R70, R71) -/

/-- The eight header bytes, then the region and the checksum (R70). -/
theorem wireBytes_eq (q : Half) (g : List Byte) (c : Byte) :
    wireBytes q g c = 0x46 :: 0x4D :: 0x54 :: 0x50 :: lo8 q :: hi8 q ::
      lo8 (BitVec.ofNat 16 g.length) :: hi8 (BitVec.ofNat 16 g.length) :: (g ++ [c]) := rfl

@[simp] theorem wireBytes_take_magic (q : Half) (g : List Byte) (c : Byte) : (wireBytes q g c).take 4 = magic := rfl

theorem wireBytes_drop (q : Half) (g : List Byte) (c : Byte) (n : Nat) :
    (wireBytes q g c).drop (n + 8) = (g ++ [c]).drop n := by
  rw [wireBytes_eq]
  simp only [List.drop_succ_cons]

theorem frameLength_wireBytes {g : List Byte} (hg : FitsCount g) (q : Half) (c : Byte) :
    frameLength (wireBytes q g c) = g.length := by
  have h : frameLength (wireBytes q g c) = (BitVec.ofNat 16 g.length).toNat := by
    rw [wireBytes_eq]
    simp only [frameLength, halfAt, byteAt, List.getD_cons_succ, List.getD_cons_zero, le16_lo8_hi8]
  rw [h, BitVec.toNat_ofNat, Nat.mod_eq_of_lt hg]

/-- The first bytes, header included, announce the same length as the whole sequence. -/
theorem frameLength_take {f : List Byte} {n : Nat} (hn : 8 ≤ n) (hf : n ≤ f.length) :
    frameLength (f.take n) = frameLength f := by
  have h := frameLength_append (f.drop n) (a := f.take n) (by rw [List.length_take]; omega)
  rwa [List.take_append_drop, eq_comm] at h

/-! ### RECEIVEs that wait with an empty accumulator -/

theorem hasRoomFor_of_empty {s : State} {bs : List Byte} (h0 : s.accLen = 0) (hne : bs ≠ [])
    (hcap : bs.length ≤ s.params.capacity) : s.HasRoomFor bs :=
  ⟨hne, by rwa [h0, show (0 : Half).toNat = 0 from rfl, Nat.zero_add]⟩

/-- Fewer than ten bytes are buffered and wait: every CAPACITY holds them (R7, R123). -/
theorem feed_short_waits {s : State} {bs : List Byte} (h : s.Ready) (h0 : s.accLen = 0) (hne : bs ≠ [])
    (hl : bs.length < 10) : s.HasRoomFor bs ∧ feed bs s = State.emit (.received .wait none) (appendFits bs s) := by
  have hcap : 11 ≤ s.params.capacity := h.1.1
  have hr : s.HasRoomFor bs := hasRoomFor_of_empty h0 hne (by omega)
  exact ⟨hr, feed_wait h hr (.inl (by rwa [joined_of_empty h0]))⟩

/-- The first bytes of an unfinished wire frame, header included, are buffered and wait (R127). -/
theorem feed_wireBytes_take_waits {s : State} {g : List Byte} {n : Nat} (h : s.Ready) (h0 : s.accLen = 0)
    (h2 : 2 ≤ g.length) (hg : FitsCount g) (hn : 10 ≤ n) (hlt : n < g.length + 9) (hcap : n ≤ s.params.capacity)
    (q : Half) (c : Byte) :
    feed ((wireBytes q g c).take n) s =
      State.emit (.received .wait none) (appendFits ((wireBytes q g c).take n) s) := by
  have hl : ((wireBytes q g c).take n).length = n := by rw [List.length_take, wireBytes_length]; omega
  have hlen : frameLength ((wireBytes q g c).take n) = g.length := by
    rw [frameLength_take (by omega) (by rw [wireBytes_length]; omega), frameLength_wireBytes hg]
  have hmagic : ((wireBytes q g c).take n).take 4 = magic := by
    rw [List.take_take, Nat.min_eq_left (by omega), wireBytes_take_magic]
  refine feed_wait h (hasRoomFor_of_empty h0 (List.ne_nil_of_length_pos (by omega)) (by omega)) (.inr ?_)
  rw [joined_of_empty h0, hl, hlen]
  exact ⟨hmagic, h2, by omega⟩

/-! ### A frame one RECEIVE cannot carry -/

theorem exec_frame_two {g : List Byte} (hg : 65535 < g.length + 9) (q : Half) (c : Byte) (s : State) :
    exec (.frame q g c) s =
      .next (feed ((wireBytes q g c).drop 65535) (feed ((wireBytes q g c).take 65535) s)) :=
  congrArg Host.Outcome.next (deliver_two (by rwa [wireBytes_length]) s)

theorem wireBytes_take_maxRxN_length {g : List Byte} (hg : 65535 < g.length + 9) (q : Half) (c : Byte) :
    ((wireBytes q g c).take 65535).length = 65535 := by
  rw [List.length_take, wireBytes_length]; omega

theorem wireBytes_drop_maxRxN_length (q : Half) (g : List Byte) (c : Byte) :
    ((wireBytes q g c).drop 65535).length = g.length + 9 - 65535 := by
  rw [List.length_drop, wireBytes_length]

theorem raise_bufferOverflow_eq (s : State) :
    State.raise .bufferOverflow s = { s with accLen := 0, trace := s.trace ++ [.received .overflow none] } := rfl

/-- Where the first 65535 bytes fit they wait, and the rest overflows the full accumulator (R127, R134). -/
theorem longFrame_waits_then_overflows {s : State} {g : List Byte} (h : s.Ready) (hlong : 65535 < g.length + 9)
    (hg : FitsCount g) (h0 : s.accLen = 0) (hcap : s.params.capacity = 65535) (q : Half) (c : Byte) :
    feed ((wireBytes q g c).drop 65535) (feed ((wireBytes q g c).take 65535) s) =
      State.raise .bufferOverflow
        (State.emit (.received .wait none) (appendFits ((wireBytes q g c).take 65535) s)) := by
  have hl := wireBytes_take_maxRxN_length hlong q c
  have hd := wireBytes_drop_maxRxN_length q g c
  rw [feed_wireBytes_take_waits h h0 (by omega) hg (by omega) hlong hcap.ge]
  have hr : s.HasRoomFor ((wireBytes q g c).take 65535) :=
    hasRoomFor_of_empty h0 (List.ne_nil_of_length_pos (by omega)) (by omega)
  refine feed_overflow (List.ne_nil_of_length_pos (by omega)) ?_
  rw [emit_params, emit_accLen, appendFits_params, appendFits_accLen_toNat h.1 hr]
  omega

/-- Everywhere else the first 65535 bytes overflow, which clears the accumulator, and the 1 to 9 bytes of the
rest wait in it (R123, R134). -/
theorem longFrame_overflows_then_waits {s : State} {g : List Byte} (h : s.Ready) (hlong : 65535 < g.length + 9)
    (hg : FitsCount g) (hfull : ¬ (s.accLen = 0 ∧ s.params.capacity = 65535)) (q : Half) (c : Byte) :
    (State.raise .bufferOverflow s).HasRoomFor ((wireBytes q g c).drop 65535) ∧
    feed ((wireBytes q g c).drop 65535) (feed ((wireBytes q g c).take 65535) s) =
      State.emit (.received .wait none)
        (appendFits ((wireBytes q g c).drop 65535) (State.raise .bufferOverflow s)) := by
  have hl := wireBytes_take_maxRxN_length hlong q c
  have hd := wireBytes_drop_maxRxN_length q g c
  have hover : s.params.capacity < s.accLen.toNat + ((wireBytes q g c).take 65535).length := by
    have hmax : s.params.capacity ≤ 65535 := h.1.2.1
    have hpos : s.accLen.toNat = 0 → s.params.capacity ≠ 65535 := fun hz hc => hfull ⟨BitVec.eq_of_toNat_eq hz, hc⟩
    omega
  rw [feed_overflow (List.ne_nil_of_length_pos (by omega)) hover]
  exact feed_short_waits (s := State.raise .bufferOverflow s) h rfl (List.ne_nil_of_length_pos (by omega)) (by omega)

/-- Settles O47: the two RECEIVEs of the frame, by whether the first 65535 bytes fit. -/
theorem frameLongerThanOneReceive : Obligations.FrameLongerThanOneReceive := by
  intro s q g c h hlong hg
  refine ⟨_, exec_frame_two hlong q c s, ?_, ?_⟩
  · rintro ⟨h0, hcap⟩
    rw [longFrame_waits_then_overflows h hlong hg h0 hcap]
    simp [raise_bufferOverflow_eq, State.emit, appendFits]
  · intro hfull
    obtain ⟨hr, hfeed⟩ := longFrame_overflows_then_waits h hlong hg hfull q c
    have hready : (State.raise .bufferOverflow s).Ready := h
    rw [hfeed]
    refine ⟨?_, ?_, ?_⟩
    · simp [raise_bufferOverflow_eq, State.emit, appendFits]
    · rw [emit_accLen, appendFits_accLen_toNat hready.1 hr, wireBytes_drop_maxRxN_length]
      simp [Cause.clearsAcc]
    · calc (State.emit (.received .wait none)
            (appendFits ((wireBytes q g c).drop 65535) (State.raise .bufferOverflow s))).buffered
          = (State.raise .bufferOverflow s).joined ((wireBytes q g c).drop 65535) := appendFits_buffered hready hr
        _ = (wireBytes q g c).drop 65535 := joined_of_empty rfl _
        _ = (g ++ [c]).drop 65527 := wireBytes_drop q g c 65527

end Sys2Proof.Machine
end

section
/-! What a RECEIVE can leave behind, said once: it waits with every byte kept, or it clears (R31, R35, R121, R136). -/

namespace Sys2Proof.Machine

theorem exec_receive (bs : List Byte) (s : State) : exec (.receive bs) s = .next (feed bs s) := rfl

theorem exec_frame (q : Half) (g : List Byte) (c : Byte) (s : State) :
    exec (.frame q g c) s = .next (deliver (wireBytes q g c) s) := rfl

/-! ### DECODE and RECEIVE: wait or clear -/

/-- DECODE waits in a state of R30, or it answers another status and clears (R31, R122). -/
theorem runDecode_waits_or_clears (s : State) :
    (s.WaitsForAFrame ∧ runDecode s = State.emit (.received .wait none) s) ∨
    ∃ status event, status ≠ .wait ∧ runDecode s = State.emit (.received status event) s.clearAcc := by
  unfold runDecode decodeBuffer minBuf minLength hdrLen
  split_ifs with h10 hm h2 h9 hx
  · exact .inl ⟨.inl h10, rfl⟩
  · exact .inr ⟨.badMagic, none, by decide, rfl⟩
  · exact .inr ⟨.badLength, none, by decide, rfl⟩
  · exact .inl ⟨.inr ⟨by simpa using hm, by omega, by omega, by omega⟩, rfl⟩
  · exact .inr ⟨.badChecksum, none, by decide, rfl⟩
  · exact .inr ⟨.frame, _, by decide, rfl⟩

/-- RECEIVE of some bytes waits with all of them stored, or it answers another status and clears, with the bytes stored
where they fit and not where they overflow (R31, R121, R136). -/
theorem feed_waits_or_clears {bs : List Byte} (hne : bs ≠ []) (s : State) :
    (s.HasRoomFor bs ∧ (appendFits bs s).WaitsForAFrame ∧
      feed bs s = State.emit (.received .wait none) (appendFits bs s)) ∨
    ∃ status event u, status ≠ .wait ∧ (¬ s.HasRoomFor bs ∧ u = s ∨ s.HasRoomFor bs ∧ u = appendFits bs s) ∧
      feed bs s = State.emit (.received status event) u.clearAcc := by
  by_cases hr : s.HasRoomFor bs
  · rw [feed_fits hr]
    rcases runDecode_waits_or_clears (appendFits bs s) with ⟨hw, h⟩ | ⟨status, event, hs, h⟩
    · exact .inl ⟨hr, hw, h⟩
    · exact .inr ⟨status, event, _, hs, .inr ⟨hr, rfl⟩, h⟩
  · have hover : s.params.capacity < s.accLen.toNat + bs.length := Nat.not_le.1 fun hle => hr ⟨hne, hle⟩
    exact .inr ⟨.overflow, none, s, by decide, .inl ⟨hr, rfl⟩, feed_overflow hne hover⟩

/-! ### What a RECEIVE leaves unchanged (R35, R121 d) -/

/-- Only ACC, ACC_LEN and the trace may differ from `s` to `t` (R35, column RECEIVE). -/
abbrev ChangesOnlyAcc (s t : State) : Prop := t = { s with acc := t.acc, accLen := t.accLen, trace := t.trace }

theorem feed_changesOnlyAcc (bs : List Byte) (s : State) : ChangesOnlyAcc s (feed bs s) := by
  by_cases hne : bs = []
  · subst hne; rfl
  · obtain ⟨-, -, h⟩ | ⟨status, event, u, -, ⟨-, rfl⟩ | ⟨-, rfl⟩, h⟩ := feed_waits_or_clears hne s
    all_goals rw [h]; rfl

theorem deliver_changesOnlyAcc (bytes : List Byte) (s : State) : ChangesOnlyAcc s (deliver bytes s) := by
  refine deliver_keeps (P := ChangesOnlyAcc s) (fun bs u hu => ?_) bytes rfl
  have hf := feed_changesOnlyAcc bs u
  rw [hu] at hf ⊢
  exact hf

theorem feed_acc_of_room {s : State} {bs : List Byte} (hr : s.HasRoomFor bs) :
    (feed bs s).acc = Memory.writeBytes s.acc s.accLen.toNat bs := by
  obtain ⟨-, -, h⟩ | ⟨status, event, u, -, ⟨hn, -⟩ | ⟨-, rfl⟩, h⟩ := feed_waits_or_clears hr.1 s
  · rw [h]; rfl
  · exact absurd hr hn
  · rw [h]; rfl

/-- Nothing is stored of no bytes, nor of bytes that overflow (log entry 7). -/
theorem feed_acc_of_no_room {s : State} {bs : List Byte} (hn : ¬ s.HasRoomFor bs) : (feed bs s).acc = s.acc := by
  by_cases hne : bs = []
  · subst hne; rfl
  · obtain ⟨hr, -⟩ | ⟨status, event, u, -, ⟨-, rfl⟩ | ⟨hr, -⟩, h⟩ := feed_waits_or_clears hne s
    · exact absurd hr hn
    · rw [h]; rfl
    · exact absurd hr hn

theorem feed_acc_wf {s : State} (h : Memory.wf s.acc) (bs : List Byte) : Memory.wf (feed bs s).acc := by
  by_cases hr : s.HasRoomFor bs
  · rw [feed_acc_of_room hr]; exact writeBytes_wf h _ _
  · rwa [feed_acc_of_no_room hr]

/-- Settles O8: the bytes stored are those of the APPEND and no others. -/
theorem receiveFrame : Obligations.ReceiveFrame := by
  intro s bs h
  refine ⟨_, exec_receive bs s, feed_changesOnlyAcc bs s, fun hr a ha => ?_, fun hn a => ?_⟩
  · rw [feed_acc_of_room hr, read_writeBytes h, if_neg (by omega)]
  · rw [feed_acc_of_no_room hn]

/-! ### The phase (R29 to R31) -/

theorem rxPhase_of_accLen_zero {s : State} (h : s.accLen = 0) : s.rxPhase = .empty := by
  unfold State.rxPhase
  rw [h]
  rfl

theorem rxPhase_of_accLen_pos {s : State} (h : 0 < s.accLen.toNat) :
    s.rxPhase = if s.accLen.toNat < 10 then .header else .body := by
  unfold State.rxPhase
  rw [if_neg (by omega)]
  rfl

theorem rxPhase_eq_body {s : State} (h : s.rxPhase = .body) : 10 ≤ s.accLen.toNat := by
  unfold State.rxPhase minBuf at h
  split_ifs at h
  omega

/-- Settles O20: a wait keeps the bytes counted, every other status clears. -/
theorem statusDecidesThePhase : Obligations.StatusDecidesThePhase := by
  intro s bs hlegal hne
  obtain ⟨hr, -, h⟩ | ⟨status, event, u, hs, hu, h⟩ := feed_waits_or_clears hne s
  · have hlen := appendFits_accLen_toNat hlegal hr
    have hpos : 0 < bs.length := List.length_pos_iff.2 hne
    refine ⟨_, .wait, none, exec_receive bs s, by rw [h]; rfl, fun hw => absurd rfl hw, fun _ => ?_⟩
    rw [h, rxPhase_of_accLen_pos (by rw [emit_accLen]; omega), emit_accLen, hlen]
  · refine ⟨_, status, event, exec_receive bs s, ?_, fun _ => ?_, fun hw => absurd hw hs⟩
    · rcases hu with ⟨-, rfl⟩ | ⟨-, rfl⟩ <;> rw [h] <;> rfl
    · exact rxPhase_of_accLen_zero (by rw [h]; rfl)

/-! ### From phase BODY (R30, R31) -/

/-- A header with the right magic and a legal length is not what DECODE rejects (R124, R126). -/
theorem decodeBuffer_of_good_header {f : List Byte} (hm : f.take 4 = magic) (h2 : 2 ≤ frameLength f) (s : State) :
    ∃ status event, (decodeBuffer f s).trace = s.trace ++ [.received status event] ∧
      status ≠ .badMagic ∧ status ≠ .badLength := by
  unfold decodeBuffer minLength
  rw [if_neg (not_not.2 hm), if_neg (Nat.not_lt.2 h2)]
  split_ifs
  · exact ⟨.wait, none, rfl, by decide, by decide⟩
  · exact ⟨.wait, none, rfl, by decide, by decide⟩
  · exact ⟨.badChecksum, none, rfl, by decide, by decide⟩
  · exact ⟨.frame, _, rfl, by decide, by decide⟩

/-- In phase BODY the header has been judged good already, and later bytes do not change it (R30, R65). -/
theorem joined_header_of_body {s : State} (hinv : s.WaitsForAFrame) (hbody : 10 ≤ s.accLen.toNat) (bs : List Byte) :
    (s.joined bs).take 4 = magic ∧ 2 ≤ frameLength (s.joined bs) := by
  obtain hlt | ⟨hm, h2, -⟩ := hinv
  · omega
  · have hlen : s.buffered.length = s.accLen.toNat := buffered_length s
    rw [take4_append bs (by omega), frameLength_append bs (by omega)]
    exact ⟨hm, h2⟩

/-- Settles O19, by the three ways through RECEIVE: no bytes, overflow, and DECODE of a header already judged. -/
theorem bodyNeverReportsAHeaderError : Obligations.BodyNeverReportsAHeaderError := by
  intro s bs hinv hphase
  obtain ⟨hlegal, hwf, -, -, hwait, -⟩ := hinv
  suffices h : ∃ status event, (feed bs s).trace = s.trace ++ [.received status event] ∧
      status ≠ .badMagic ∧ status ≠ .badLength by
    obtain ⟨status, event, h⟩ := h
    exact ⟨_, status, event, exec_receive bs s, h⟩
  by_cases hne : bs = []
  · subst hne
    exact ⟨.ignored, none, rfl, by decide, by decide⟩
  · by_cases hover : s.params.capacity < s.accLen.toNat + bs.length
    · rw [feed_overflow hne hover]
      exact ⟨.overflow, none, rfl, by decide, by decide⟩
    · have hr : s.HasRoomFor bs := ⟨hne, Nat.not_lt.1 hover⟩
      obtain ⟨hm, h2⟩ := joined_header_of_body hwait (rxPhase_eq_body hphase) bs
      rw [feed_fits hr, runDecode, appendFits_buffered ⟨hlegal, hwf⟩ hr]
      exact decodeBuffer_of_good_header hm h2 (appendFits bs s)

end Sys2Proof.Machine
end

section
/-! The other operations, arm by arm, and what each may write (R35, R36). -/

namespace Sys2Proof.Machine

/-- The registers an accepted INIT installs (R100). -/
theorem exec_init_accepted (wr rd : Bool) (u b : Nat) (c : Half) (s : State) :
    exec (.init true wr rd u b c) s =
      .next (State.emit .completed { s with
        acc := Memory.zeroed, accLen := 0, tpWr := wr, tpRd := rd, uctx := u, tblBase := b, tblCount := c }) := rfl

theorem exec_init_ignored (wr rd : Bool) (u b : Nat) (c : Half) (s : State) :
    exec (.init false wr rd u b c) s = .next (State.emit .completed s) := rfl

theorem exec_setTable (b : Nat) (c : Half) (s : State) :
    exec (.setTable b c) s = .next (State.emit .completed (State.installTable b c s)) := rfl

/-- SEND gives its response, and where it is accepted takes the transport's answer: nothing else moves (R162 to R167). -/
theorem exec_send_cases (c q : Half) (payload : List Byte) (s : State) :
    ∃ o, exec (.send c q payload) s = .next (State.emit o s) ∨
      exec (.send c q payload) s = .next (State.emit o s.nextAnswer) := by
  show ∃ o, execSend c q payload s = .next (State.emit o s) ∨ execSend c q payload s = .next (State.emit o s.nextAnswer)
  unfold execSend
  split_ifs
  · exact ⟨_, .inl rfl⟩
  · exact ⟨_, .inl rfl⟩
  · exact ⟨_, .inr rfl⟩

/-- Settles O1: the reset state's fields, and the registers an accepted INIT installs. -/
theorem resetAndInitValues : Obligations.ResetAndInitValues := by
  refine ⟨⟨rfl, rfl, rfl, rfl, rfl, rfl, rxPhase_of_accLen_zero rfl⟩, fun s wr rd u b c => ?_⟩
  exact ⟨_, exec_init_accepted wr rd u b c s, rfl, read_zeroed, rfl, rfl, rfl, rfl, rfl⟩

/-- Settles O36, by the instruction: each writes what its arm's lemma says. -/
theorem accessSummary : Obligations.AccessSummary := by
  intro i s
  cases i with
  | init tpValid wr rd u b c =>
    cases tpValid with
    | true =>
      refine ⟨_, exec_init_accepted wr rd u b c s, rfl, rfl, rfl, ?_, ?_, ?_⟩
      all_goals intro hinit; exact absurd rfl (hinit wr rd u b c)
    | false => exact ⟨_, exec_init_ignored wr rd u b c s, by simp⟩
  | setTable b c =>
    refine ⟨_, exec_setTable b c s, rfl, rfl, rfl, by simp, ?_, by simp⟩
    intro _ hset
    exact absurd rfl (hset b c)
  | receive bs =>
    have hf := feed_changesOnlyAcc bs s
    refine ⟨_, exec_receive bs s, ?_⟩
    rw [hf]
    refine ⟨rfl, rfl, rfl, by simp, by simp, ?_⟩
    intro _ hreceive
    exact absurd rfl (hreceive bs)
  | send c q payload =>
    obtain ⟨o, h | h⟩ := exec_send_cases c q payload s
    · exact ⟨_, h, by simp⟩
    · exact ⟨_, h, by simp⟩
  | frame q g c =>
    have hf := deliver_changesOnlyAcc (wireBytes q g c) s
    refine ⟨_, exec_frame q g c s, ?_⟩
    rw [hf]
    refine ⟨rfl, rfl, rfl, by simp, by simp, ?_⟩
    intro _ _ hframe
    exact absurd rfl (hframe q g c)

end Sys2Proof.Machine
end

section
/-! One step, by the host's next action, and the well-formedness of what a step runs (R58, log entry 10). -/

namespace Sys2Proof.Machine

theorem step_idle {s : State} (h : s.inbox = []) : step s = .next s := by
  unfold step State.nextAction
  rw [h]

theorem step_of_decode_ok {s : State} {bytes : List Byte} {rest : List HostAction} {i : Instr}
    (h : s.inbox = .operation bytes :: rest) (hd : decode s.params bytes = .ok i) :
    step s = exec i { s with inbox := rest } := by
  unfold step State.nextAction
  rw [h]
  simp only [hd]

theorem step_of_decode_error {s : State} {bytes : List Byte} {rest : List HostAction} {e : DecodeError}
    (h : s.inbox = .operation bytes :: rest) (hd : decode s.params bytes = .error e) :
    step s = .refused (.badRequest e) := by
  unfold step State.nextAction
  rw [h]
  simp only [hd]

theorem step_reset {s : State} {rest : List HostAction} (h : s.inbox = .reset :: rest) :
    step s = .next { s with inbox := rest }.hardwareReset := by
  unfold step State.nextAction
  rw [h]

theorem step_writeTable {s : State} {a word : Nat} {rest : List HostAction} (h : s.inbox = .writeTable a word :: rest) :
    step s = State.hostWriteTable a word { s with inbox := rest } := by
  unfold step State.nextAction
  rw [h]

theorem step_overlap {s : State} {a b : List Byte} {rest : List HostAction} (h : s.inbox = .overlap a b :: rest) :
    step s = .refused .overlappedOperations := by
  unfold step State.nextAction
  rw [h]

/-- Each row's decoder yields well-formed terms only. -/
theorem decodeFirst_wf {p : Params} {bytes rest : List Byte} {i : Instr} (h : decodeFirst p bytes = .ok (i, rest)) :
    i.wf p = true := by
  cases bytes with
  | nil => cases h
  | cons b bs =>
    simp only [decodeFirst] at h
    split_ifs at h
    · obtain ⟨_, _, _, _, _, _, -, hwf, -⟩ := decodeInit_eq_ok.1 h
      exact hwf
    · obtain ⟨_, _, -, hwf, -⟩ := decodeSetTable_eq_ok.1 h
      exact hwf
    · obtain ⟨_, -, hwf, -⟩ := (decodeReceive_eq_ok (p := p)).1 h
      exact hwf
    · obtain ⟨_, _, _, -, hwf, -⟩ := (decodeSend_eq_ok (p := p)).1 h
      exact hwf
    · obtain ⟨_, _, _, -, hwf, -⟩ := (decodeWireFrame_eq_ok (p := p)).1 h
      exact hwf

theorem decode_eq_ok {p : Params} {bytes : List Byte} {i : Instr} :
    decode p bytes = .ok i ↔ decodeFirst p bytes = .ok (i, []) := by
  unfold decode
  split
  next j h => simp [h]
  next j b bs h => simp [h]
  next e h => simp [h]

theorem decode_wf {p : Params} {bytes : List Byte} {i : Instr} (h : decode p bytes = .ok i) : i.wf p = true :=
  decodeFirst_wf (decode_eq_ok.1 h)

end Sys2Proof.Machine
end

section
/-! Every step keeps the invariant of the block (R20, R23, R30). -/

namespace Sys2Proof.Machine

/-- The invariant without R30: what APPEND's store keeps before DECODE has judged the bytes. -/
def State.Bounded (s : State) : Prop :=
  s.params.Legal ∧ Memory.wf s.acc ∧ (∀ c ∈ s.acc, c.1 < s.params.capacity) ∧
    s.accLen.toNat ≤ s.params.capacity ∧ s.WidthsHold ∧ Table.wf s.tbl

theorem inv_iff {s : State} : s.Inv ↔ s.Bounded ∧ s.WaitsForAFrame := by
  unfold State.Bounded
  constructor
  · rintro ⟨hp, hm, hc, hl, hw, hv, ht⟩
    exact ⟨⟨hp, hm, hc, hl, hv, ht⟩, hw⟩
  · rintro ⟨⟨hp, hm, hc, hl, hv, ht⟩, hw⟩
    exact ⟨hp, hm, hc, hl, hw, hv, ht⟩

/-- The trace is no part of the invariant. -/
theorem emit_inv {s : State} (o : Output) : (State.emit o s).Inv ↔ s.Inv := Iff.rfl

/-- An empty accumulator waits for a frame, so a clear needs no more than the bounds (R24, R30). -/
theorem clearAcc_inv {s : State} (h : s.Bounded) : s.clearAcc.Inv := by
  obtain ⟨hp, hm, hc, -, hv, ht⟩ := h
  exact ⟨hp, hm, hc, Nat.zero_le _, .inl (by decide : (0 : Half).toNat < 10), hv, ht⟩

/-- APPEND's store stays within CAPACITY and keeps ACC canonical (R23, R121). -/
theorem appendFits_bounded {s : State} {bs : List Byte} (h : s.Bounded) (hr : s.HasRoomFor bs) :
    (appendFits bs s).Bounded := by
  obtain ⟨hp, hm, hc, hl, hv, ht⟩ := h
  have hlen := appendFits_accLen_toNat hp hr
  obtain ⟨-, hroom⟩ := hr
  refine ⟨hp, writeBytes_wf hm _ _, fun c hmem => ?_, ?_, hv, ht⟩
  · rcases mem_writeBytes hmem with hold | hnew
    · exact hc c hold
    · exact lt_of_lt_of_le hnew hroom
  · rw [hlen]
    exact hroom

theorem feed_inv (bs : List Byte) (s : State) (h : s.Inv) : (feed bs s).Inv := by
  have hb : s.Bounded := (inv_iff.1 h).1
  by_cases hne : bs = []
  · subst hne
    exact h
  · obtain ⟨hr, hw, hf⟩ | ⟨status, event, u, -, hu, hf⟩ := feed_waits_or_clears hne s
    · rw [hf]
      exact inv_iff.2 ⟨appendFits_bounded hb hr, hw⟩
    · rw [hf, emit_inv]
      rcases hu with ⟨-, rfl⟩ | ⟨hr, rfl⟩
      · exact clearAcc_inv hb
      · exact clearAcc_inv (appendFits_bounded hb hr)

theorem installTable_inv {s : State} {b : Nat} (h : s.Inv) (hbase : b < 2 ^ s.params.tblAw) (c : Half) :
    (State.installTable b c s).Inv := by
  obtain ⟨hp, hm, hc, hl, hw, ⟨hu, -, he, hr⟩, ht⟩ := h
  exact ⟨hp, hm, hc, hl, hw, ⟨hu, hbase, he, hr⟩, ht⟩

/-- The registers an accepted INIT or a hardware reset sets, where they fit their widths (R36, R100). -/
theorem cleared_registers_inv {s : State} {u b : Nat} (h : s.Inv) (hu : u < 2 ^ s.params.uctxW)
    (hb : b < 2 ^ s.params.tblAw) (wr rd : Bool) (c : Half) :
    ({ s with acc := Memory.zeroed, accLen := 0, tpWr := wr, tpRd := rd, uctx := u, tblBase := b, tblCount := c }
      : State).Inv := by
  obtain ⟨hp, -, -, -, -, ⟨-, -, he, hr⟩, ht⟩ := h
  refine ⟨hp, wf_zeroed, fun c hmem => ?_, Nat.zero_le _, .inl (by decide : (0 : Half).toNat < 10),
    ⟨hu, hb, he, hr⟩, ht⟩
  cases hmem

theorem hardwareReset_inv {s : State} (h : s.Inv) : s.hardwareReset.Inv :=
  cleared_registers_inv h (Nat.two_pow_pos _) (Nat.two_pow_pos _) false false 0

/-- The answers still to come fit RESULT_W as they did (R165). -/
theorem nextAnswer_inv {s : State} (h : s.Inv) : s.nextAnswer.Inv := by
  obtain ⟨hp, hm, hc, hl, hw, ⟨hu, hb, he, hr⟩, ht⟩ := h
  unfold State.nextAnswer
  split
  next r rest htr =>
    rw [htr] at hr
    exact ⟨hp, hm, hc, hl, hw, ⟨hu, hb, he, fun x hx => hr x (List.mem_cons_of_mem r hx)⟩, ht⟩
  next => exact ⟨hp, hm, hc, hl, hw, ⟨hu, hb, he, hr⟩, ht⟩

/-- The written entry exists, its handler is cut to HANDLER_W, and the addresses stay rising (R50, R56, R61). -/
theorem hostWriteTable_inv {s t : State} {a word : Nat} (h : s.Inv) (hw : s.hostWriteTable a word = .next t) :
    t.Inv := by
  obtain ⟨hp, hm, hc, hl, hwait, ⟨hu, hb, he, hr⟩, ht⟩ := h
  unfold State.hostWriteTable at hw
  split_ifs at hw with ha
  cases hw
  refine ⟨hp, hm, hc, hl, hwait, ⟨hu, hb, fun x hx => ?_, hr⟩, table_write_wf ht _ _⟩
  rcases mem_table_write hx with hold | rfl
  · exact he x hold
  · exact ⟨ha, Nat.mod_lt _ (Nat.two_pow_pos _)⟩

theorem exec_inv {i : Instr} {s t : State} (h : s.Inv) (hwf : i.wf s.params = true) (ht : exec i s = .next t) :
    t.Inv := by
  cases i with
  | init tpValid wr rd u b c =>
    cases tpValid with
    | true =>
      simp only [Instr.wf, Bool.and_eq_true, decide_eq_true_eq] at hwf
      cases ht
      exact cleared_registers_inv h hwf.1 hwf.2 wr rd c
    | false => cases ht; exact h
  | setTable b c => cases ht; exact installTable_inv h (of_decide_eq_true hwf) c
  | receive bs => cases ht; exact feed_inv bs s h
  | send c q payload =>
    obtain ⟨o, hs | hs⟩ := exec_send_cases c q payload s
    · cases hs.symm.trans ht; exact h
    · cases hs.symm.trans ht; exact nextAnswer_inv h
  | frame q g c => cases ht; exact deliver_keeps feed_inv _ h

/-- Settles O37, by the host's next action; what a step decodes is well-formed. -/
theorem stepKeepsTheInvariant : Obligations.StepKeepsTheInvariant := by
  intro s t h hstep
  cases hin : s.inbox with
  | nil => cases (step_idle hin).symm.trans hstep; exact h
  | cons action rest =>
    have h' : ({ s with inbox := rest } : State).Inv := h
    cases action with
    | operation bytes =>
      cases hd : decode s.params bytes with
      | ok i => exact exec_inv h' (decode_wf hd) ((step_of_decode_ok hin hd).symm.trans hstep)
      | error e => cases (step_of_decode_error hin hd).symm.trans hstep
    | reset => cases (step_reset hin).symm.trans hstep; exact hardwareReset_inv h'
    | writeTable a word => exact hostWriteTable_inv h' ((step_writeTable hin).symm.trans hstep)
    | overlap a b => cases (step_overlap hin).symm.trans hstep

/-- Settles O38: the reset state has nothing buffered, no entry and no answer. -/
theorem resetHasTheInvariant : Obligations.ResetHasTheInvariant := by
  unfold Obligations.ResetHasTheInvariant
  decide

end Sys2Proof.Machine
end

section
/-! The bytes of ACC at or above ACC_LEN are never observed: steps from two states that differ only there stay
side by side (R21, R24). -/

namespace Sys2Proof.Machine

/-! ### The updates keep two such states side by side -/

/-- The second of two such states is the first with another ACC. -/
theorem SameToTheHost.exists_acc {s t : State} (h : SameToTheHost s t) :
    ∃ m, t = { s with acc := m } ∧ ∀ a < s.accLen.toNat, Memory.read s.acc a = Memory.read m a :=
  ⟨t.acc, h⟩

theorem SameToTheHost.params_eq {s t : State} (h : SameToTheHost s t) : t.params = s.params := by
  obtain ⟨m, rfl, -⟩ := h.exists_acc
  rfl

theorem SameToTheHost.accLen_eq {s t : State} (h : SameToTheHost s t) : t.accLen = s.accLen := by
  obtain ⟨m, rfl, -⟩ := h.exists_acc
  rfl

theorem SameToTheHost.tpWr_eq {s t : State} (h : SameToTheHost s t) : t.tpWr = s.tpWr := by
  obtain ⟨m, rfl, -⟩ := h.exists_acc
  rfl

theorem SameToTheHost.inbox_eq {s t : State} (h : SameToTheHost s t) : t.inbox = s.inbox := by
  obtain ⟨m, rfl, -⟩ := h.exists_acc
  rfl

theorem SameToTheHost.emit {s t : State} (h : SameToTheHost s t) (o : Output) :
    SameToTheHost (State.emit o s) (State.emit o t) := by
  obtain ⟨m, rfl, hm⟩ := h.exists_acc
  exact ⟨rfl, hm⟩

/-- After a clear every byte of ACC is such a byte (R24). -/
theorem SameToTheHost.clearAcc {s t : State} (h : SameToTheHost s t) : SameToTheHost s.clearAcc t.clearAcc := by
  obtain ⟨m, rfl, -⟩ := h.exists_acc
  exact ⟨rfl, fun a ha => absurd ha (Nat.not_lt_zero a)⟩

theorem SameToTheHost.installTable {s t : State} (h : SameToTheHost s t) (b : Nat) (c : Half) :
    SameToTheHost (State.installTable b c s) (State.installTable b c t) := by
  obtain ⟨m, rfl, hm⟩ := h.exists_acc
  exact ⟨rfl, hm⟩

theorem SameToTheHost.nextAnswer {s t : State} (h : SameToTheHost s t) : SameToTheHost s.nextAnswer t.nextAnswer := by
  obtain ⟨m, rfl, hm⟩ := h.exists_acc
  unfold State.nextAnswer
  cases s.transport with
  | nil => exact ⟨rfl, hm⟩
  | cons r rest => exact ⟨rfl, hm⟩

theorem SameToTheHost.withInbox {s t : State} (h : SameToTheHost s t) (rest : List HostAction) :
    SameToTheHost { s with inbox := rest } { t with inbox := rest } := by
  obtain ⟨m, rfl, hm⟩ := h.exists_acc
  exact ⟨rfl, hm⟩

/-! ### RECEIVE -/

/-- Two such states have the same bytes buffered (R21). -/
theorem SameToTheHost.buffered_eq {s t : State} (h : SameToTheHost s t) : s.buffered = t.buffered := by
  obtain ⟨m, rfl, hm⟩ := h.exists_acc
  exact buffered_congr rfl hm

/-- APPEND stores the same bytes at the same tail, so the bytes below the new ACC_LEN agree (R121). -/
theorem SameToTheHost.appendFits {s t : State} (h : SameToTheHost s t) (hs : Memory.wf s.acc) (ht : Memory.wf t.acc)
    (bs : List Byte) : SameToTheHost (appendFits bs s) (appendFits bs t) := by
  obtain ⟨m, rfl, hm⟩ := h.exists_acc
  refine ⟨rfl, fun a ha => ?_⟩
  have hle : a < s.accLen.toNat + bs.length := by
    rw [appendFits_accLen, BitVec.toNat_ofNat] at ha
    exact lt_of_lt_of_le ha (Nat.mod_le _ _)
  simp only [appendFits_acc]
  rw [read_writeBytes hs, read_writeBytes ht]
  by_cases hnew : s.accLen.toNat ≤ a ∧ a < s.accLen.toNat + bs.length
  · rw [if_pos hnew, if_pos hnew]
  · rw [if_neg hnew, if_neg hnew]
    exact hm a (by omega)

/-- DISPATCH does not look at ACC (R150, R155). -/
theorem dispatch_acc (id : Half) (payload : List Byte) (plen : Half) (u : Nat) (s : State) (m : Memory) :
    dispatch id payload plen u { s with acc := m } = dispatch id payload plen u s := by
  unfold dispatch
  rw [findEntry_congr (s := { s with acc := m }) (t := s) rfl rfl rfl]

theorem SameToTheHost.extract {s t : State} (h : SameToTheHost s t) (f : List Byte) :
    SameToTheHost (extract f s) (extract f t) := by
  have hclear := h.clearAcc
  obtain ⟨m, rfl, -⟩ := h.exists_acc
  unfold Machine.extract
  simp only [dispatch_acc]
  exact hclear.emit _

theorem SameToTheHost.raise {s t : State} (h : SameToTheHost s t) (c : Cause) :
    SameToTheHost (State.raise c s) (State.raise c t) := by
  unfold State.raise
  split_ifs
  · exact h.clearAcc.emit _
  · exact h.emit _

/-- DECODE of the same bytes takes the same exit (R122). -/
theorem SameToTheHost.decodeBuffer {s t : State} (h : SameToTheHost s t) (f : List Byte) :
    SameToTheHost (decodeBuffer f s) (decodeBuffer f t) := by
  unfold Machine.decodeBuffer
  rw [h.accLen_eq]
  split_ifs
  · exact h.emit _
  · exact h.raise _
  · exact h.raise _
  · exact h.emit _
  · exact h.raise _
  · exact h.extract f

theorem SameToTheHost.feed {s t : State} (h : SameToTheHost s t) (hs : Memory.wf s.acc) (ht : Memory.wf t.acc)
    (bs : List Byte) : SameToTheHost (feed bs s) (feed bs t) := by
  have happend := h.appendFits hs ht bs
  unfold Machine.feed runDecode
  rw [h.accLen_eq, h.params_eq, ← happend.buffered_eq]
  split_ifs
  · exact h.emit _
  · exact h.raise _
  · exact happend.decodeBuffer _

theorem SameToTheHost.deliver {s t : State} (h : SameToTheHost s t) (hs : Memory.wf s.acc) (ht : Memory.wf t.acc)
    (bytes : List Byte) : SameToTheHost (deliver bytes s) (deliver bytes t) := by
  unfold Machine.deliver
  split_ifs
  · exact h.feed hs ht bytes
  · exact (h.feed hs ht _).feed (feed_acc_wf hs _) (feed_acc_wf ht _) _

/-! ### Every operation and every step -/

/-- SEND does not look at ACC: the checks, the write event and the answer are the same (R160, R167). -/
theorem SameToTheHost.execSend {s t : State} (h : SameToTheHost s t) (c q : Half) (payload : List Byte) :
    SameOutcome SameToTheHost (execSend c q payload s) (execSend c q payload t) := by
  have hanswer : t.answer = s.answer := by rw [h.1]; rfl
  have hevent : writeEvent c q payload t = writeEvent c q payload s := by rw [h.1]; rfl
  unfold Machine.execSend
  rw [h.params_eq, h.tpWr_eq, hanswer, hevent]
  split_ifs
  · exact h.raise _
  · exact h.raise _
  · exact h.nextAnswer.emit _

theorem SameToTheHost.exec {s t : State} (h : SameToTheHost s t) (hs : Memory.wf s.acc) (ht : Memory.wf t.acc)
    (i : Instr) : SameOutcome SameToTheHost (exec i s) (exec i t) := by
  cases i with
  | init tpValid wr rd u b c =>
    cases tpValid with
    | true =>
      obtain ⟨m, rfl, -⟩ := h.exists_acc
      exact ⟨rfl, fun _ _ => rfl⟩
    | false => exact h.emit _
  | setTable b c => exact (h.installTable b c).emit _
  | receive bs => exact h.feed hs ht bs
  | send c q payload => exact h.execSend c q payload
  | frame q g c => exact h.deliver hs ht _

theorem SameToTheHost.hostWriteTable {s t : State} (h : SameToTheHost s t) (a word : Nat) :
    SameOutcome SameToTheHost (s.hostWriteTable a word) (t.hostWriteTable a word) := by
  obtain ⟨m, rfl, hm⟩ := h.exists_acc
  unfold State.hostWriteTable
  split_ifs
  · exact ⟨rfl, hm⟩
  · rfl

theorem SameToTheHost.hardwareReset {s t : State} (h : SameToTheHost s t) :
    SameToTheHost s.hardwareReset t.hardwareReset := by
  obtain ⟨m, rfl, -⟩ := h.exists_acc
  exact ⟨rfl, fun _ _ => rfl⟩

/-- Settles O39, by the host's next action, which is the same for both states. -/
theorem deadBytesAreUnobservable : Obligations.DeadBytesAreUnobservable := by
  intro s t hs ht h
  cases hin : s.inbox with
  | nil =>
    rw [step_idle hin, step_idle (h.inbox_eq.trans hin)]
    exact h
  | cons action rest =>
    have h' := h.withInbox rest
    have hin' := h.inbox_eq.trans hin
    cases action with
    | operation bytes =>
      cases hd : decode s.params bytes with
      | ok i =>
        rw [step_of_decode_ok hin hd, step_of_decode_ok hin' (by rw [h.params_eq]; exact hd)]
        exact h'.exec hs ht i
      | error e =>
        rw [step_of_decode_error hin hd, step_of_decode_error hin' (by rw [h.params_eq]; exact hd)]
        rfl
    | reset =>
      rw [step_reset hin, step_reset hin']
      exact h'.hardwareReset
    | writeTable a word =>
      rw [step_writeTable hin, step_writeTable hin']
      exact h'.hostWriteTable a word
    | overlap a b =>
      rw [step_overlap hin, step_overlap hin']
      rfl

end Sys2Proof.Machine
end

section
/-! The table memory as the block sees it: the host's writes (R61), and an active table longer than TBL (R57). -/

namespace Sys2Proof.Machine

/-! ### Host writes to TBL (R61 b) -/

theorem hostWriteTable_of_lt {s : State} {a : Nat} (h : a < 2 ^ s.params.tblAw) (word : Nat) :
    s.hostWriteTable a word = .next { s with tbl := Table.write s.tbl a (entryOfWord s.params word) } := if_pos h

theorem hostWriteTable_of_le {s : State} {a : Nat} (h : 2 ^ s.params.tblAw ≤ a) (word : Nat) :
    s.hostWriteTable a word = .fault (.noSuchTableEntry a) := if_neg (Nat.not_lt.2 h)

/-- After an entry is written at `a`, `MemRead(TBL, a, 1)` gives it; every other address reads as before. -/
theorem entryAt_write (s : State) (a b : Nat) (e : TblEntry) :
    State.entryAt { s with tbl := Table.write s.tbl a e } b = if b = a then e else s.entryAt b := by
  unfold State.entryAt
  rw [table_read_write]
  by_cases h : b = a
  · rw [if_pos h, if_pos h, Option.getD_some]
  · rw [if_neg h, if_neg h]

/-- Settles O46, by whether TBL has the entry address. -/
theorem hostWriteIsSeen : Obligations.HostWriteIsSeen := by
  intro s a word rest hin
  rw [step_writeTable hin]
  refine ⟨fun ha => ?_, fun ha => hostWriteTable_of_le (s := { s with inbox := rest }) ha word⟩
  refine ⟨_, hostWriteTable_of_lt (s := { s with inbox := rest }) ha word, rfl, ?_, fun b hb => ?_⟩
  · exact (entryAt_write { s with inbox := rest } a a _).trans (if_pos rfl)
  · exact (entryAt_write { s with inbox := rest } a b _).trans (if_neg hb)

/-! ### An active table longer than TBL (R57) -/

/-- The active table repeats after `2^TBL_AW` entries. -/
theorem activeEntry_mod (s : State) (i : Nat) : s.activeEntry (i % 2 ^ s.params.tblAw) = s.activeEntry i := by
  unfold State.activeEntry
  rw [Nat.add_mod_mod]

theorem findEntry_eq_none_iff {s : State} {id : Half} {i n : Nat} :
    findEntry s id i n = none ↔ ∀ k < n, (s.activeEntry (i + k)).id ≠ id := by
  obtain ⟨hnone, hall⟩ | ⟨k, hk, hid, -, hsome⟩ := findEntry_spec s id i n
  · exact iff_of_true hnone hall
  · exact iff_of_false (by simp [hsome]) fun hall => hall k hk hid

/-- A search over `m + n` entries is one over the first `m` and, where that finds nothing, one over the rest. -/
theorem findEntry_add (s : State) (id : Half) (i m n : Nat) :
    findEntry s id i (m + n) = (findEntry s id i m).or (findEntry s id (i + m) n) := by
  induction m generalizing i with
  | zero => rw [Nat.zero_add, Nat.add_zero, findEntry, Option.none_or]
  | succ m ih =>
    rw [Nat.succ_add, findEntry, findEntry, ih, Nat.succ_add_eq_add_succ]
    split_ifs
    · rfl
    · rfl

/-- Past the first `2^TBL_AW` entries the search meets no entry it has not seen. -/
theorem findEntry_of_long {s : State} {n : Nat} (h : 2 ^ s.params.tblAw ≤ n) (id : Half) :
    findEntry s id 0 n = findEntry s id 0 (2 ^ s.params.tblAw) := by
  obtain ⟨m, rfl⟩ := Nat.exists_eq_add_of_le h
  rw [findEntry_add]
  cases hfirst : findEntry s id 0 (2 ^ s.params.tblAw) with
  | some e => rfl
  | none =>
    rw [Option.none_or, findEntry_eq_none_iff]
    intro k _
    rw [← activeEntry_mod, ← Nat.zero_add (_ % _)]
    exact findEntry_eq_none_iff.1 hfirst _ (Nat.mod_lt _ (Nat.two_pow_pos _))

/-- The search is told how many entries to look at: TBL_COUNT itself it does not read. -/
theorem findEntry_tblCount (s : State) (count id : Half) (i n : Nat) :
    findEntry { s with tblCount := count } id i n = findEntry s id i n :=
  findEntry_congr (s := { s with tblCount := count }) (t := s) rfl rfl rfl id i n

/-- Settles O21: the search over TBL_COUNT entries ends within the first `2^TBL_AW`. -/
theorem longTableRevisitsEntries : Obligations.LongTableRevisitsEntries := by
  intro s id payload plen u hlong
  have hcount : (BitVec.ofNat 16 (2 ^ s.params.tblAw)).toNat = 2 ^ s.params.tblAw := by
    rw [BitVec.toNat_ofNat, Nat.mod_eq_of_lt (hlong.trans s.tblCount.isLt)]
  unfold dispatch
  rw [hcount, findEntry_tblCount s (BitVec.ofNat 16 _), findEntry_of_long hlong.le]

end Sys2Proof.Machine
end

section
/-! Operations at the port: what a step does with them, and the responses each gives (R58, R60, R193). -/

namespace Sys2Proof.Machine

/-- A RECEIVE gives exactly one response (R136). -/
theorem feed_oneResponse (bs : List Byte) (s : State) : ∃ o, (feed bs s).trace = s.trace ++ [o] := by
  by_cases hne : bs = []
  · subst hne; exact ⟨_, rfl⟩
  · obtain ⟨-, -, h⟩ | ⟨status, event, u, -, ⟨-, rfl⟩ | ⟨-, rfl⟩, h⟩ := feed_waits_or_clears hne s
    all_goals rw [h]; exact ⟨_, rfl⟩

/-- Every instruction that is at most one RECEIVE completes with one response (R58, R193). -/
theorem exec_oneResponse {i : Instr} (hshort : ∀ q g c, i = .frame q g c → g.length + 9 ≤ 65535) (s : State) :
    ∃ t o, exec i s = .next t ∧ t.trace = s.trace ++ [o] := by
  cases i with
  | init tpValid wr rd u b c =>
    cases tpValid with
    | true => exact ⟨_, _, exec_init_accepted wr rd u b c s, rfl⟩
    | false => exact ⟨_, _, exec_init_ignored wr rd u b c s, rfl⟩
  | setTable b c => exact ⟨_, _, exec_setTable b c s, rfl⟩
  | receive bs =>
    obtain ⟨o, ho⟩ := feed_oneResponse bs s
    exact ⟨_, o, exec_receive bs s, ho⟩
  | send c q payload =>
    obtain ⟨o, h | h⟩ := exec_send_cases c q payload s
    · exact ⟨_, o, h, rfl⟩
    · exact ⟨_, o, h, by simp⟩
  | frame q g c =>
    obtain ⟨o, ho⟩ := feed_oneResponse (wireBytes q g c) s
    refine ⟨_, o, exec_frame q g c s, ?_⟩
    rwa [deliver_one (by rw [wireBytes_length]; exact hshort q g c rfl)]

/-- A FRAME that takes two RECEIVEs completes with two responses (log entry 8). -/
theorem exec_longFrame_twoResponses {g : List Byte} (hlong : 65535 < g.length + 9) (q : Half) (c : Byte) (s : State) :
    ∃ t o₁ o₂, exec (.frame q g c) s = .next t ∧ t.trace = s.trace ++ [o₁, o₂] := by
  obtain ⟨o₁, h₁⟩ := feed_oneResponse ((wireBytes q g c).take 65535) s
  obtain ⟨o₂, h₂⟩ := feed_oneResponse ((wireBytes q g c).drop 65535) (feed ((wireBytes q g c).take 65535) s)
  refine ⟨_, o₁, o₂, exec_frame_two hlong q c s, ?_⟩
  rw [h₂, h₁, List.append_assoc, List.singleton_append]

/-- Settles O34, by whether the instruction is a FRAME that takes two RECEIVEs. -/
theorem everyOperationCompletes : Obligations.EveryOperationCompletes := by
  intro i s
  by_cases hshort : ∀ q g c, i = .frame q g c → g.length + 9 ≤ 65535
  · obtain ⟨t, o, hexec, htrace⟩ := exec_oneResponse hshort s
    exact ⟨t, [o], hexec, htrace, fun _ => rfl, fun q g c hi hlong => absurd (hshort q g c hi) (Nat.not_le.2 hlong)⟩
  · push Not at hshort
    obtain ⟨q, g, c, rfl, hlong⟩ := hshort
    obtain ⟨t, o₁, o₂, hexec, htrace⟩ := exec_longFrame_twoResponses hlong q c s
    exact ⟨t, [o₁, o₂], hexec, htrace, fun hone => absurd (hone q g c rfl) (Nat.not_le.2 hlong), fun _ _ _ _ _ => rfl⟩

/-- Settles O43, from the step's equation for an operation that decodes. -/
theorem stepRunsTheDecodedInstruction : Obligations.StepRunsTheDecodedInstruction :=
  fun _ _ _ _ hin hdecode => step_of_decode_ok hin hdecode

/-- Settles O45, from the step's equation for an overlap. -/
theorem overlapIsRefused : Obligations.OverlapIsRefused :=
  fun _ _ _ _ hin => step_overlap hin

end Sys2Proof.Machine
end

section
/-! The port's decoder and encoder are inverse to each other, and the codes of the responses (R70, R80 to R83). -/

namespace Sys2Proof.Machine

/-- The decoder undoes the encoder whatever bytes follow: the families of Laws.RoundTrip, over every instruction. -/
theorem decodeFirst_encode {p : Params} {i : Instr} (hwf : i.wf p = true) (rest : List Byte) :
    decodeFirst p (encode p i ++ rest) = .ok (i, rest) := by
  cases i with
  | init t w r u b c => exact Laws.RoundTrip.init t w r u b c p rest hwf
  | setTable b c => exact Laws.RoundTrip.setTable b c p rest hwf
  | receive bs => exact Laws.RoundTrip.receive bs p rest hwf
  | send c q payload => exact Laws.RoundTrip.send c q payload p rest hwf
  | frame q g c => exact Laws.RoundTrip.frame q g c p rest hwf

/-- What the decoder has read is the encoding of what it answers, so an instruction has one encoding only. -/
theorem encode_of_decodeFirst {p : Params} {bytes rest : List Byte} {i : Instr}
    (h : decodeFirst p bytes = .ok (i, rest)) : encode p i ++ rest = bytes := by
  cases bytes with
  | nil => cases h
  | cons b bs =>
    simp only [decodeFirst] at h
    split_ifs at h with hinit hset hreceive hsend hmagic
    · obtain ⟨t, w, r, u, base, c, rfl, -, rfl⟩ := decodeInit_eq_ok.1 h
      rw [hinit]; rfl
    · obtain ⟨base, c, rfl, -, rfl⟩ := decodeSetTable_eq_ok.1 h
      rw [hset]; rfl
    · obtain ⟨rx, rfl, -, rfl⟩ := (decodeReceive_eq_ok (p := p)).1 h
      rw [hreceive]; rfl
    · obtain ⟨c, q, payload, rfl, -, rfl⟩ := (decodeSend_eq_ok (p := p)).1 h
      rw [hsend]; rfl
    · obtain ⟨q, g, c, rfl, -, hbytes⟩ := (decodeWireFrame_eq_ok (p := p)).1 h
      rw [← List.take_append_drop 4 (b :: bs), hmagic, hbytes]
      simp only [encode, wireBytes, List.append_assoc, List.singleton_append]

/-- Settles O40, from the two directions for a request that other bytes may follow. -/
theorem decodeIsTheInverseOfEncode : Obligations.DecodeIsTheInverseOfEncode := by
  intro p bytes i
  rw [decode_eq_ok]
  constructor
  · intro h
    exact ⟨decodeFirst_wf h, by simpa using encode_of_decodeFirst h⟩
  · rintro ⟨hwf, rfl⟩
    simpa using decodeFirst_encode hwf []

/-- Settles O41: the decoder run on each sequence. -/
theorem sampleSequencesDecode : Obligations.SampleSequencesDecode := ⟨rfl, rfl, rfl, rfl, rfl⟩

/-- Settles O42, code by code. -/
theorem responseCodes : Obligations.ResponseCodes := ⟨⟨rfl, rfl, rfl, rfl, rfl, rfl, rfl⟩, rfl, rfl, rfl⟩

end Sys2Proof.Machine
end

section
/-! The exclusive-or over an encoded frame (R73). -/

namespace Sys2Proof.Machine

theorem frameBody_eq_magic_append (cmdId seqType : Half) (payload : List Byte) :
    frameBody cmdId seqType payload = magic ++ (frameBody cmdId seqType payload).drop 4 := rfl

theorem xor8_append_self_check (bs : List Byte) : xor8 (bs ++ [xor8 bs]) = 0 := by
  simp [xor8_append, xor8_cons, xor8_nil]

/-- Between the magic and the checksum an encoded frame holds the rest of its body (R71). -/
theorem encodeFrame_drop_take (cmdId seqType : Half) (payload : List Byte) :
    ((encodeFrame cmdId seqType payload).drop 4).take (payload.length + 6) =
      (frameBody cmdId seqType payload).drop 4 := by
  have hl := frameBody_length cmdId seqType payload
  rw [encodeFrame, List.drop_append_of_le_length (by omega)]
  exact List.take_left' (by rw [List.length_drop]; omega)

/-- Settles O28: a byte that is the exclusive-or of those before it cancels them, and that of the magic is `0x0F`. -/
theorem encodedFrameXorsToZero : Obligations.EncodedFrameXorsToZero := by
  intro cmdId seqType payload h
  refine ⟨xor8_append_self_check _, ?_⟩
  have hmagic : xor8 magic = 0x0F := by decide
  rw [encodeFrame_drop_take, encodeFrame, body_checksum h, ← hmagic, ← xor8_append, ← frameBody_eq_magic_append]

end Sys2Proof.Machine
end

section
/-! A FRAME as the RECEIVE of its wire bytes, and DECODE's judgement of one that arrives alone (R70, R77, R122, log entry 8). -/

namespace Sys2Proof.Machine

/-! ### The fields of a wire frame beside its length (R71) -/

theorem frameCommandId_wireBytes {g : List Byte} (h2 : 2 ≤ g.length) (q : Half) (c : Byte) :
    frameCommandId (wireBytes q g c) = le16 (byteAt g 0) (byteAt g 1) := by
  rw [← byteAt_append [c] (show 0 < g.length by omega), ← byteAt_append [c] (show 1 < g.length by omega), wireBytes_eq]
  simp only [frameCommandId, halfAt, byteAt, List.getD_cons_succ]

theorem framePayload_wireBytes {g : List Byte} (hg : FitsCount g) (h2 : 2 ≤ g.length) (q : Half) (c : Byte) :
    framePayload (wireBytes q g c) = g.drop 2 := by
  rw [framePayload, frameLength_wireBytes hg, wireBytes_drop q g c 2, List.drop_append_of_le_length h2]
  exact List.take_left' List.length_drop

/-- The bytes before the checksum, which it covers: `8 + length` of them (R70, R73). -/
theorem covered_length (q : Half) (g : List Byte) :
    (magic ++ halfBytes q ++ countedBytes g).length = hdrLen + g.length := by
  simp [magic, halfBytes, countedBytes, hdrLen]
  omega

theorem frameXor_wireBytes {g : List Byte} (hg : FitsCount g) (q : Half) (c : Byte) :
    frameXor (wireBytes q g c) = xor8 (magic ++ halfBytes q ++ countedBytes g) := by
  rw [frameXor, frameLength_wireBytes hg, wireBytes, List.take_left' (covered_length q g)]

theorem frameChecksum_wireBytes {g : List Byte} (hg : FitsCount g) (q : Half) (c : Byte) :
    frameChecksum (wireBytes q g c) = c := by
  rw [frameChecksum, frameLength_wireBytes hg, wireBytes, byteAt, ← covered_length q g]
  simp

/-! ### FRAME as RECEIVE -/

theorem exec_frame_one {g : List Byte} (hg : g.length + 9 ≤ 65535) (q : Half) (c : Byte) (s : State) :
    exec (.frame q g c) s = .next (feed (wireBytes q g c) s) :=
  congrArg Host.Outcome.next (deliver_one (by rwa [wireBytes_length]) s)

/-- Settles O32, by whether one RECEIVE carries the frame. -/
theorem frameArrivesAsItsBytes : Obligations.FrameArrivesAsItsBytes := by
  intro s q g c
  exact ⟨rfl, fun hone => exec_frame_one hone q c s, fun htwo => exec_frame_two htwo q c s⟩

/-! ### A frame that meets an empty accumulator -/

/-- From 10 bytes on, with the magic right, DECODE of a wire frame is left with its length and its checksum (R122). -/
theorem feed_wireBytes {s : State} {g : List Byte} (h : s.Ready) (h0 : s.accLen = 0)
    (hcap : g.length + 9 ≤ s.params.capacity) (hpos : 0 < g.length) (q : Half) (c : Byte) :
    feed (wireBytes q g c) s =
      if g.length < 2 then State.raise .badLength (appendFits (wireBytes q g c) s)
      else if xor8 (magic ++ halfBytes q ++ countedBytes g) ≠ c then
        State.raise .badChecksum (appendFits (wireBytes q g c) s)
      else extract (wireBytes q g c) (appendFits (wireBytes q g c) s) := by
  have hmax : s.params.capacity ≤ 65535 := h.1.2.1
  have hg : FitsCount g := show g.length < 65536 by omega
  have hl := wireBytes_length q g c
  have hr : s.HasRoomFor (wireBytes q g c) :=
    hasRoomFor_of_empty h0 (List.ne_nil_of_length_pos (by omega)) (by omega)
  rw [feed_eq h hr, joined_of_empty h0, frameLength_wireBytes hg, frameXor_wireBytes hg, frameChecksum_wireBytes hg,
    if_neg (show ¬ (wireBytes q g c).length < 10 by omega), if_neg (not_not.2 (wireBytes_take_magic q g c)),
    if_neg (show ¬ (wireBytes q g c).length < 9 + g.length by omega)]

/-- Settles O33, by the size of the region and then the checksum; without a region the frame is nine bytes, which wait. -/
theorem frameAloneIsJudged : Obligations.FrameAloneIsJudged := by
  intro s q g c h h0 hcap
  have hmax : s.params.capacity ≤ 65535 := h.1.2.1
  have hg : FitsCount g := show g.length < 65536 by omega
  have hl := wireBytes_length q g c
  refine ⟨_, exec_frame_one (by omega) q c s, ?_, ?_, ?_, ?_⟩
  · intro h2 hc
    rw [feed_wireBytes h h0 hcap (by omega), if_neg (by omega), if_neg (not_not.2 hc.symm)]
    have hlen := frameLength_wireBytes hg q c
    obtain ⟨event, hext, hdisp⟩ := extract_spec (f := wireBytes q g c) (appendFits (wireBytes q g c) s)
      (by omega) (by omega)
    rw [frameCommandId_wireBytes h2, framePayload_wireBytes hg h2, dispatchedAs_appendFits] at hdisp
    exact ⟨event, by rw [hext]; rfl, hdisp⟩
  · intro h2 hc
    rw [feed_wireBytes h h0 hcap (by omega), if_neg (by omega), if_pos (Ne.symm hc)]
    rfl
  · intro h1
    rw [feed_wireBytes h h0 hcap (by omega), if_pos (by omega)]
    rfl
  · intro hnone
    have hne : wireBytes q g c ≠ [] := List.ne_nil_of_length_pos (by omega)
    obtain ⟨-, hwait⟩ := feed_short_waits h h0 hne (by omega)
    have hlen : (appendFits (wireBytes q g c) s).accLen = 9 := by
      rw [appendFits_accLen, h0, hl, hnone]
      rfl
    rw [hwait, ← hlen]
    rfl

end Sys2Proof.Machine
end

section
/-! The widths of what an operation shows the host, and the counts of its bytes (R83 to R85). -/

namespace Sys2Proof.Machine

/-! ### The values the outputs carry -/

theorem mem_of_table_read {t : Table} {a : Nat} {e : TblEntry} (h : Table.read t a = some e) : (a, e) ∈ t := by
  induction t with
  | nil => cases h
  | cons x t ih =>
    obtain ⟨k, d⟩ := x
    rw [Table.read] at h
    split_ifs at h with hk
    · cases h; rw [hk]; exact List.mem_cons_self
    · exact List.mem_cons_of_mem _ (ih h)

/-- A handler read from TBL has HANDLER_W bits: the host's write is cut to them, and so is the free value of an entry
never written (R56, U4). -/
theorem entryAt_handler_lt {s : State} (h : s.WidthsHold) (a : Nat) : (s.entryAt a).handler < 2 ^ s.params.handlerW := by
  obtain ⟨-, -, hentries, -⟩ := h
  unfold State.entryAt
  cases hread : Table.read s.tbl a with
  | none => exact Nat.mod_lt _ (Nat.two_pow_pos _)
  | some e => exact (hentries _ (mem_of_table_read hread)).2

/-- The transport's answer has RESULT_W bits, queued or free (R165). -/
theorem answer_fits {s : State} (h : s.WidthsHold) : FitsSigned s.params.resultW s.answer := by
  obtain ⟨-, -, -, hqueue⟩ := h
  unfold State.answer
  split
  next r rest htr => exact hqueue r (htr ▸ List.mem_cons_self)
  next =>
    have hpos : 0 < 2 ^ s.params.resultW := Nat.two_pow_pos _
    have hlow := Int.le_bmod (x := Config.freeAnswer s.draws) hpos
    have hhigh := Int.bmod_lt (x := Config.freeAnswer s.draws) hpos
    push_cast at hlow hhigh
    constructor <;> omega

theorem zero_fitsSigned (w : Nat) : FitsSigned w 0 := by
  have hpos : (0 : Int) < 2 ^ w := by positivity
  constructor <;> omega

/-- What DISPATCH may produce has the widths of R84, and `disp_len` counts the payload of at most 65535 bytes. -/
theorem DispatchedAs.fits {s : State} {id : Half} {payload : List Byte} {event : Option DispatchEvent}
    (hd : DispatchedAs s id payload event) (h : s.WidthsHold) (hp : FitsCount payload) (status : RxStatus) :
    (Output.received status event).Fits s.params := by
  obtain ⟨rfl, -⟩ | ⟨i, -, -, -, rfl⟩ := hd
  · trivial
  · have huctx : s.uctx < 2 ^ s.params.uctxW := h.1
    exact ⟨entryAt_handler_lt h _, huctx, Nat.mod_eq_of_lt hp⟩

/-! ### Operations whose outputs fit -/

/-- From `s` to `t` the trace has grown by some outputs, all of which fit the fields of `s`'s block. -/
def EmitsFitting (s t : State) : Prop :=
  ∃ outputs, t.trace = s.trace ++ outputs ∧ outputs ≠ [] ∧ ∀ o ∈ outputs, o.Fits s.params

theorem EmitsFitting.of_one {s t : State} {o : Output} (ht : t.trace = s.trace ++ [o]) (ho : o.Fits s.params) :
    EmitsFitting s t :=
  ⟨[o], ht, List.cons_ne_nil _ _, fun o' ho' => by rwa [List.mem_singleton.1 ho']⟩

theorem EmitsFitting.trans {s t u : State} (h₁ : EmitsFitting s t) (hp : t.params = s.params)
    (h₂ : EmitsFitting t u) : EmitsFitting s u := by
  obtain ⟨os₁, htr₁, hne, hfit₁⟩ := h₁
  obtain ⟨os₂, htr₂, -, hfit₂⟩ := h₂
  refine ⟨os₁ ++ os₂, by rw [htr₂, htr₁, List.append_assoc], List.append_ne_nil_of_left_ne_nil hne _, fun o ho => ?_⟩
  rcases List.mem_append.1 ho with ho | ho
  · exact hfit₁ o ho
  · exact hp ▸ hfit₂ o ho

/-- DECODE's exits: only an extraction shows an event, and its payload is of `length - 2` bytes (R122, R129). -/
theorem feed_emitsFitting (bs : List Byte) {s : State} (h : s.Inv) : EmitsFitting s (feed bs s) := by
  obtain ⟨hlegal, hwf, -, -, -, hwidths, -⟩ := h
  by_cases hne : bs = []
  · subst hne
    exact .of_one rfl trivial
  · by_cases hover : s.params.capacity < s.accLen.toNat + bs.length
    · rw [feed_overflow hne hover]
      exact .of_one (raise_trace _ _) trivial
    · rw [feed_eq ⟨hlegal, hwf⟩ ⟨hne, Nat.not_lt.1 hover⟩]
      split_ifs with h10 hm h2 h9 hx
      · exact .of_one rfl trivial
      · exact .of_one (raise_trace _ _) trivial
      · exact .of_one (raise_trace _ _) trivial
      · exact .of_one rfl trivial
      · exact .of_one (raise_trace _ _) trivial
      · obtain ⟨event, hext, hd⟩ := extract_spec (appendFits bs s) (Nat.not_lt.1 h2) (Nat.not_lt.1 h9)
        have hp : FitsCount (framePayload (s.joined bs)) := by
          have hlen : frameLength (s.joined bs) < 65536 := (halfAt _ 6).isLt
          rw [FitsCount, framePayload_length (Nat.not_lt.1 h2) (Nat.not_lt.1 h9)]
          omega
        rw [hext]
        exact .of_one rfl (hd.fits hwidths hp .frame)

theorem deliver_emitsFitting (bytes : List Byte) {s : State} (h : s.Inv) : EmitsFitting s (deliver bytes s) := by
  unfold deliver
  split_ifs
  · exact feed_emitsFitting bytes h
  · refine (feed_emitsFitting _ h).trans ?_ (feed_emitsFitting _ (feed_inv _ s h))
    rw [feed_changesOnlyAcc (bytes.take maxRxN) s]

/-- SEND's three exits: a rejection has result 0, and `tx_len` counts the frame, which CAPACITY bounds (R162 to R166). -/
theorem execSend_emitsFitting (c q : Half) (payload : List Byte) {s : State} (h : s.Inv) :
    ∃ t, execSend c q payload s = .next t ∧ EmitsFitting s t := by
  obtain ⟨⟨-, hmax, -⟩, -, -, -, -, hwidths, -⟩ := h
  unfold execSend
  split_ifs with hlarge hunset
  · exact ⟨_, rfl, .of_one (raise_trace _ _) (zero_fitsSigned _)⟩
  · exact ⟨_, rfl, .of_one (raise_trace _ _) (zero_fitsSigned _)⟩
  · have huctx : s.uctx < 2 ^ s.params.uctxW := hwidths.1
    have hlen : (writeEvent c q payload s).len.toNat = (writeEvent c q payload s).bytes.length := by
      unfold overhead at hlarge
      simp only [writeEvent, encodeFrame_length, overhead, BitVec.toNat_ofNat]
      omega
    have htrace : (State.emit (.sent .sent s.answer (some (writeEvent c q payload s))) s.nextAnswer).trace =
        s.trace ++ [.sent .sent s.answer (some (writeEvent c q payload s))] := by
      rw [emit_trace, nextAnswer_trace]
    exact ⟨_, rfl, .of_one htrace ⟨answer_fits hwidths, huctx, hlen⟩⟩

theorem exec_emitsFitting (i : Instr) {s : State} (h : s.Inv) : ∃ t, exec i s = .next t ∧ EmitsFitting s t := by
  cases i with
  | init tpValid wr rd u b c =>
    cases tpValid with
    | true => exact ⟨_, exec_init_accepted wr rd u b c s, .of_one rfl trivial⟩
    | false => exact ⟨_, exec_init_ignored wr rd u b c s, .of_one rfl trivial⟩
  | setTable b c => exact ⟨_, exec_setTable b c s, .of_one rfl trivial⟩
  | receive bs => exact ⟨_, exec_receive bs s, feed_emitsFitting bs h⟩
  | send c q payload => exact execSend_emitsFitting c q payload h
  | frame q g c => exact ⟨_, exec_frame q g c s, deliver_emitsFitting _ h⟩

/-- Settles O35, by the instruction; that its own operands are well-formed is not needed. -/
theorem outputsFitTheirFields : Obligations.OutputsFitTheirFields := by
  intro i s h _
  obtain ⟨t, hexec, outputs, htrace, hne, hfit⟩ := exec_emitsFitting i h
  exact ⟨t, outputs, hexec, htrace, hne, hfit⟩

end Sys2Proof.Machine
end

section
/-! The context operations INIT and SET_TABLE, and a frame that completes after a swap (R100 to R104, R155). -/

namespace Sys2Proof.Machine

/-! ### A frame in flight while the table is swapped (R101 a, R155) -/

/-- RECEIVE of the bytes that complete a good frame: the frame is dispatched against the table of this moment, and the
accumulator is cleared (R129, R130, R155). -/
theorem feed_good_dispatches {s : State} {bs : List Byte} (h : s.Ready) (hr : s.HasRoomFor bs)
    (hg : GoodFrame (s.joined bs)) :
    ∃ event, feed bs s = State.emit (.received .frame event) (appendFits bs s).clearAcc ∧
      DispatchedAs s (frameCommandId (s.joined bs)) (framePayload (s.joined bs)) event := by
  rw [feed_good h hr hg]
  obtain ⟨-, -, h2, h9, -⟩ := hg
  exact extract_spec (appendFits bs s) h2 h9

/-- A swap neither drops nor moves a buffered byte (R101 a). -/
theorem joined_installTable (b : Nat) (c : Half) (o : Output) (s : State) (bs : List Byte) :
    (State.emit o (State.installTable b c s)).joined bs = s.joined bs := rfl

/-- Settles O23: after the swap the same bytes are buffered, so the frame still completes, and the search reads the
reference of the swapped state. -/
theorem swapTakesEffectForAFrameInFlight : Obligations.SwapTakesEffectForAFrameInFlight := by
  intro s b c bs h hr hg
  rw [← joined_installTable b c .completed s bs] at hg
  obtain ⟨event, hfeed, hdispatched⟩ :=
    feed_good_dispatches (s := State.emit .completed (State.installTable b c s)) h hr hg
  refine ⟨_, _, event, exec_setTable b c s, exec_receive bs _, ?_, hdispatched⟩
  rw [hfeed]
  simp

/-! ### What the context operations write (R100 to R104) -/

/-- Settles O3, by `tp_valid`. -/
theorem initInstallsOrIsIgnored : Obligations.InitInstallsOrIsIgnored := by
  intro s wr rd u b c
  constructor
  · exact ⟨_, exec_init_accepted wr rd u b c s, rfl, read_zeroed⟩
  · exact exec_init_ignored wr rd u b c s

/-- Settles O4: an accepted INIT takes from the state before it only what stands outside the block's registers. -/
theorem initForgetsTheBlock : Obligations.InitForgetsTheBlock := by
  intro s s' wr rd u b c hparams htbl hinbox htransport hdraws htrace
  rw [exec_init_accepted, exec_init_accepted, State.emit, State.emit]
  simp only [hparams, htbl, hinbox, htransport, hdraws, htrace]

/-- Settles O5. -/
theorem setTableReplacesTheReference : Obligations.SetTableReplacesTheReference :=
  fun s b c => exec_setTable b c s

end Sys2Proof.Machine
end

section
/-! What a RECEIVE of some bytes does on each of DECODE's ways, and on an overflow (R121 to R136). -/

namespace Sys2Proof.Machine

/-! ### The exits of DECODE that feed_good and feed_wait leave out (R124, R126, R128) -/

theorem feed_badMagic {s : State} {bs : List Byte} (h : s.Ready) (hr : s.HasRoomFor bs)
    (h10 : 10 ≤ (s.joined bs).length) (hm : (s.joined bs).take 4 ≠ magic) :
    feed bs s = State.raise .badMagic (appendFits bs s) := by
  rw [feed_eq h hr, if_neg (Nat.not_lt.2 h10), if_pos hm]

theorem feed_badLength {s : State} {bs : List Byte} (h : s.Ready) (hr : s.HasRoomFor bs)
    (h10 : 10 ≤ (s.joined bs).length) (hm : (s.joined bs).take 4 = magic) (h2 : frameLength (s.joined bs) < 2) :
    feed bs s = State.raise .badLength (appendFits bs s) := by
  rw [feed_eq h hr, if_neg (Nat.not_lt.2 h10), if_neg (not_not.2 hm), if_pos h2]

theorem feed_badChecksum {s : State} {bs : List Byte} (h : s.Ready) (hr : s.HasRoomFor bs)
    (h10 : 10 ≤ (s.joined bs).length) (hm : (s.joined bs).take 4 = magic) (h2 : 2 ≤ frameLength (s.joined bs))
    (h9 : 9 + frameLength (s.joined bs) ≤ (s.joined bs).length)
    (hx : frameXor (s.joined bs) ≠ frameChecksum (s.joined bs)) :
    feed bs s = State.raise .badChecksum (appendFits bs s) := by
  rw [feed_eq h hr, if_neg (Nat.not_lt.2 h10), if_neg (not_not.2 hm), if_neg (Nat.not_lt.2 h2),
    if_neg (Nat.not_lt.2 h9), if_pos hx]

/-! ### No bytes, and APPEND (R121, R132) -/

/-- Settles O6. -/
theorem receiveOfNothingIsIgnored : Obligations.ReceiveOfNothingIsIgnored := by
  intro s
  rw [exec_receive, feed_nil]
  rfl

/-- Settles O7, by whether the bytes fit; the stored bytes are read back by the law of a store. -/
theorem appendStoresOrOverflows : Obligations.AppendStoresOrOverflows := by
  intro s bs h hne
  constructor
  · intro hover
    rw [exec_receive, feed_overflow hne hover, raise_bufferOverflow_eq]
  · intro hfits
    have hr : s.HasRoomFor bs := ⟨hne, hfits⟩
    refine ⟨by rw [exec_receive, feed_fits hr], rfl, appendFits_accLen_toNat h.1 hr, fun k hk => ?_, fun a ha => ?_⟩
    · rw [appendFits_acc, read_writeBytes h.2, if_pos (by omega), Nat.add_sub_cancel_left,
        List.getD_eq_getElem _ _ hk]
    · rw [appendFits_acc, read_writeBytes h.2, if_neg (by omega)]

/-! ### One response, and what it says of the accumulator (R136, R191) -/

/-- `t` is `s` after one RECEIVE response that tells the truth about the event and the accumulator (R136, R191). -/
def AnswersOnce (s t : State) : Prop :=
  ∃ status event, t.trace = s.trace ++ [.received status event] ∧
    (event ≠ none → status = .frame) ∧
    (status ≠ .wait → status ≠ .ignored → t.accLen = 0) ∧
    (status ∈ [.overflow, .badMagic, .badLength, .badChecksum] →
      event = none ∧ t = { s with acc := t.acc, accLen := 0, trace := t.trace })

/-- A receive-side error answers with its status alone and clears, whether APPEND has stored the bytes or not (R191). -/
theorem raise_answersOnce {c : Cause} {status : RxStatus} (hc : c.response = .received status none)
    (hclear : c.clearsAcc = true) {s u : State} (hu : ChangesOnlyAcc s u) (htrace : u.trace = s.trace) :
    AnswersOnce s (State.raise c u) := by
  refine ⟨status, none, by rw [raise_trace, hc, htrace], fun he => absurd rfl he, fun _ _ => ?_, fun _ => ⟨rfl, ?_⟩⟩
  · rw [raise_accLen, if_pos hclear]
  · rw [hu, State.raise, if_pos hclear]
    rfl

/-- The seven exits of RECEIVE, the four errors by one argument. -/
theorem feed_answersOnce (bs : List Byte) (s : State) : AnswersOnce s (feed bs s) := by
  rcases feed_cases bs s with ⟨-, h⟩ | ⟨-, -, h⟩ | ⟨-, h | h | h | h | ⟨event, h⟩⟩ <;> rw [h]
  · exact ⟨.ignored, none, rfl, fun he => absurd rfl he, fun _ hi => absurd rfl hi, fun he => absurd he (by decide)⟩
  · exact raise_answersOnce rfl rfl rfl rfl
  · exact ⟨.wait, none, rfl, fun he => absurd rfl he, fun hw => absurd rfl hw, fun he => absurd he (by decide)⟩
  · exact raise_answersOnce rfl rfl rfl rfl
  · exact raise_answersOnce rfl rfl rfl rfl
  · exact raise_answersOnce rfl rfl rfl rfl
  · exact ⟨.frame, event, rfl, fun _ => rfl, fun _ _ => rfl, fun he => absurd he (by decide)⟩

/-- Settles O9. -/
theorem receiveAnswersOnce : Obligations.ReceiveAnswersOnce := by
  intro s bs
  obtain ⟨status, event, h⟩ := feed_answersOnce bs s
  exact ⟨_, status, event, exec_receive bs s, h⟩

/-! ### Waiting with every byte kept (R123, R127, R134) -/

/-- Bytes on which DECODE waits: no header to judge yet, or a good header and less than the frame it announces (R30). -/
abbrev Unfinished (f : List Byte) : Prop :=
  f.length < 10 ∨ (f.take 4 = magic ∧ 2 ≤ frameLength f ∧ f.length < 9 + frameLength f)

theorem receive_waits {s : State} {bs : List Byte} (h : s.Ready) (hr : s.HasRoomFor bs)
    (hw : Unfinished (s.joined bs)) :
    ∃ t, exec (.receive bs) s = .next t ∧
      t = { s with acc := t.acc, accLen := t.accLen, trace := s.trace ++ [.received .wait none] } ∧
      t.accLen.toNat = s.accLen.toNat + bs.length ∧ t.buffered = s.joined bs := by
  refine ⟨_, exec_receive bs s, ?_⟩
  rw [feed_wait h hr hw]
  exact ⟨rfl, appendFits_accLen_toNat h.1 hr, appendFits_buffered h hr⟩

/-- Settles O10. -/
theorem waitsForTenBytes : Obligations.WaitsForTenBytes :=
  fun _ _ h hr h10 => receive_waits h hr (.inl h10)

/-- Settles O13. -/
theorem waitsForTheWholeFrame : Obligations.WaitsForTheWholeFrame :=
  fun _ _ h hr _ hm h2 h9 => receive_waits h hr (.inr ⟨hm, h2, h9⟩)

/-- Settles O16, by whether the bytes fit: what fits CAPACITY is less than the frame the buffered header announces. -/
theorem frameTooLongNeverDispatches : Obligations.FrameTooLongNeverDispatches := by
  intro s bs h h10 hm hlong hne
  have hmin : 11 ≤ s.params.capacity := h.1.1
  have hbuf : s.buffered.length = s.accLen.toNat := buffered_length s
  by_cases hfits : s.accLen.toNat + bs.length ≤ s.params.capacity
  · have hlen : frameLength (s.joined bs) = frameLength s.buffered := frameLength_append bs (by omega)
    have hmagic : (s.joined bs).take 4 = magic := (take4_append bs (by omega)).trans hm
    have hjoined : (s.joined bs).length = s.accLen.toNat + bs.length := by rw [List.length_append, hbuf]
    obtain ⟨t, hexec, ht, -, hkept⟩ := receive_waits h ⟨hne, hfits⟩ (.inr ⟨hmagic, by omega, by omega⟩)
    exact ⟨t, hexec, fun _ => ⟨ht, hkept⟩, fun hover => absurd hfits (Nat.not_le.2 hover)⟩
  · refine ⟨_, exec_receive bs s, fun hfits' => absurd hfits' hfits, fun hover => ?_⟩
    rw [feed_overflow hne hover]
    rfl

/-! ### The rejections (R124, R126, R128) -/

/-- Settles O11. -/
theorem badMagicClears : Obligations.BadMagicClears :=
  fun _ _ h hr h10 hm => ⟨_, by rw [exec_receive, feed_badMagic h hr h10 hm], rfl⟩

/-- Settles O12. -/
theorem badLengthClears : Obligations.BadLengthClears :=
  fun _ _ h hr h10 hm h2 => ⟨_, by rw [exec_receive, feed_badLength h hr h10 hm h2], rfl⟩

/-- Settles O14. -/
theorem badChecksumClears : Obligations.BadChecksumClears :=
  fun _ _ h hr h10 hm h2 h9 hx => ⟨_, by rw [exec_receive, feed_badChecksum h hr h10 hm h2 h9 hx], rfl⟩

/-! ### Good frames (R129 to R133) -/

/-- RECEIVE of the bytes that complete a good frame, as an outcome. -/
theorem receive_good {s : State} {bs : List Byte} (h : s.Ready) (hr : s.HasRoomFor bs) (hg : GoodFrame (s.joined bs)) :
    ∃ t event, exec (.receive bs) s = .next t ∧
      t = { s with acc := t.acc, accLen := 0, trace := s.trace ++ [.received .frame event] } ∧
      DispatchedAs s (frameCommandId (s.joined bs)) (framePayload (s.joined bs)) event := by
  obtain ⟨event, hfeed, hdisp⟩ := feed_good_dispatches h hr hg
  exact ⟨_, event, by rw [exec_receive, hfeed], rfl, hdisp⟩

/-- Settles O15: the fields in the statement are those DECODE extracts. -/
theorem goodFrameIsDispatched : Obligations.GoodFrameIsDispatched :=
  fun _ _ h hr hg => receive_good h hr hg

/-- Settles O17: the first frame is good whatever follows it, and the clear takes the second with it. -/
theorem secondFrameIsLost : Obligations.SecondFrameIsLost := by
  intro s c1 q1 c2 q2 p1 p2 h h0 hcap
  have hmax : s.params.capacity ≤ 65535 := h.1.2.1
  have hlen : (encodeFrame c1 q1 p1 ++ encodeFrame c2 q2 p2).length = p1.length + p2.length + 22 := by
    rw [List.length_append, encodeFrame_length, encodeFrame_length]; omega
  have hr : s.HasRoomFor (encodeFrame c1 q1 p1 ++ encodeFrame c2 q2 p2) :=
    hasRoomFor_of_empty h0 (List.ne_nil_of_length_pos (by omega)) (by omega)
  have hgood : GoodFrame (encodeFrame c1 q1 p1 ++ encodeFrame c2 q2 p2) := encodeFrame_good (by omega) _
  obtain ⟨-, -, hid, hpayload⟩ := encodeFrame_fields (cmdId := c1) (seqType := q1) (payload := p1) (by omega)
    (encodeFrame c2 q2 p2)
  have hdone := receive_good h hr (by rwa [joined_of_empty h0])
  rwa [joined_of_empty h0, hid, hpayload] at hdone

end Sys2Proof.Machine
end

section
/-! RECEIVEs in a row: a frame in any pieces, and the bytes of one RECEIVE split at a wait (R135, R137). -/

namespace Sys2Proof.Machine

/-! ### A frame in any pieces (R137) -/

/-- A good frame is not finished before its last byte, and so far DECODE can only wait (R30, R127). -/
theorem unfinished_of_append {a b : List Byte} (hg : GoodFrame (a ++ b))
    (hend : (a ++ b).length = 9 + frameLength (a ++ b)) (hb : b ≠ []) : Unfinished a := by
  obtain ⟨-, hm, h2, -, -⟩ := hg
  have hpos : 0 < b.length := List.length_pos_iff.2 hb
  rw [List.length_append] at hend
  by_cases h10 : a.length < 10
  · exact .inl h10
  · rw [take4_append b (by omega)] at hm
    rw [frameLength_append b (by omega)] at h2 hend
    exact .inr ⟨hm, h2, by omega⟩

theorem emit_buffered (o : Output) (s : State) : (State.emit o s).buffered = s.buffered := rfl

theorem appendFits_ready {s : State} (h : s.Ready) (bs : List Byte) : (appendFits bs s).Ready :=
  ⟨h.1, writeBytes_wf h.2 _ _⟩

theorem receiveEach_cons {c : List Byte} {s t : State} (h : exec (.receive c) s = .next t) (cs : List (List Byte)) :
    receiveEach (c :: cs) s = receiveEach cs t := by
  rw [receiveEach, h]

/-- The pieces of the rest of a good frame, from any number of its bytes already buffered: every piece before the last
leaves the frame unfinished, and the last completes it. -/
theorem receiveEach_good {f : List Byte} (hg : GoodFrame f) (hend : f.length = 9 + frameLength f)
    {pieces : List (List Byte)} (hne : pieces ≠ []) (hpieces : ∀ x ∈ pieces, x ≠ []) {s : State} (h : s.Ready)
    (hcap : f.length ≤ s.params.capacity) (hf : s.joined pieces.flatten = f) :
    ∃ t event, receiveEach pieces s = .next t ∧
      t = { s with
            acc := t.acc, accLen := 0
            trace := s.trace ++ List.replicate (pieces.length - 1) (.received .wait none) ++
              [.received .frame event] } ∧
      DispatchedAs s (frameCommandId f) (framePayload f) event := by
  induction pieces generalizing s with
  | nil => exact absurd rfl hne
  | cons x rest ih =>
    have hsplit : s.joined x ++ rest.flatten = f := by rw [← hf, List.flatten_cons, List.append_assoc]
    have hr : s.HasRoomFor x := by
      have hlen := congrArg List.length hsplit
      rw [List.length_append, List.length_append, buffered_length] at hlen
      exact ⟨hpieces x List.mem_cons_self, by omega⟩
    cases rest with
    | nil =>
      rw [List.flatten_nil, List.append_nil] at hsplit
      obtain ⟨t, event, hexec, ht, hdisp⟩ := receive_good h hr (by rwa [hsplit])
      refine ⟨t, event, receiveEach_cons hexec [], by simpa using ht, by rwa [hsplit] at hdisp⟩
    | cons y ys =>
      have hrest : (y :: ys).flatten ≠ [] := by
        rw [List.flatten_cons]
        exact List.append_ne_nil_of_left_ne_nil (hpieces y (by simp)) _
      have hwait := feed_wait h hr (unfinished_of_append (hsplit ▸ hg) (hsplit ▸ hend) hrest)
      obtain ⟨t, event, heach, ht, hdisp⟩ := ih (s := State.emit (.received .wait none) (appendFits x s))
        (List.cons_ne_nil y ys) (fun z hz => hpieces z (List.mem_cons_of_mem x hz)) (appendFits_ready h x) hcap
        (by rwa [State.joined, emit_buffered, appendFits_buffered h hr])
      refine ⟨t, event, ?_, ht.trans ?_, hdisp⟩
      · rwa [receiveEach_cons (by rw [exec_receive, hwait])]
      · simp [State.emit, appendFits, List.replicate_succ]

/-- Settles O29: what ENCODE builds is a good frame of exactly `9 + length` bytes. -/
theorem roundTripInAnyPieces : Obligations.RoundTripInAnyPieces := by
  intro s c q payload pieces h h0 hcap hpieces hflat
  have hmax : s.params.capacity ≤ 65535 := h.1.2.1
  have hgood := encodeFrame_good (cmdId := c) (seqType := q) (payload := payload) (by omega) []
  obtain ⟨-, hlength, hid, hpayload⟩ := encodeFrame_fields (cmdId := c) (seqType := q) (payload := payload) (by omega) []
  rw [List.append_nil] at hgood hlength hid hpayload
  have hlen := encodeFrame_length c q payload
  have hne : pieces ≠ [] := by
    rintro rfl
    rw [← hflat] at hlen
    simp at hlen
  have hdone := receiveEach_good hgood (by omega) hne hpieces h (by omega) (by rw [joined_of_empty h0, hflat])
  rwa [hid, hpayload] at hdone

/-! ### Splitting a RECEIVE at a wait (R135) -/

theorem writeBytes_append (m : Memory) (off : Nat) (a b : List Byte) :
    Memory.writeBytes m off (a ++ b) = Memory.writeBytes (Memory.writeBytes m off a) (off + a.length) b := by
  induction a generalizing m off with
  | nil => rfl
  | cons x a ih =>
    rw [List.cons_append, Memory.writeBytes, ih, Memory.writeBytes, List.length_cons, Nat.add_right_comm, Nat.add_assoc]

/-- Two APPENDs that fit store what one APPEND of all the bytes stores (R121). -/
theorem appendFits_appendFits {s : State} {a : List Byte} (h : s.params.Legal) (hr : s.HasRoomFor a) (b : List Byte) :
    appendFits b (appendFits a s) = appendFits (a ++ b) s := by
  have hlen := appendFits_accLen_toNat h hr
  rw [appendFits, hlen, appendFits_acc, ← writeBytes_append, Nat.add_assoc, ← List.length_append]
  rfl

/-- DECODE does not look at the trace: after one more output it takes the same exit, with the same answer. -/
theorem runDecode_emit (o : Output) (s : State) :
    ∃ status event u, u.trace = s.trace ∧ runDecode s = State.emit (.received status event) u ∧
      runDecode (State.emit o s) = State.emit (.received status event) (State.emit o u) := by
  unfold runDecode decodeBuffer
  rw [emit_buffered, emit_accLen]
  split_ifs
  · exact ⟨.wait, none, s, rfl, rfl, rfl⟩
  · exact ⟨.badMagic, none, s.clearAcc, rfl, rfl, rfl⟩
  · exact ⟨.badLength, none, s.clearAcc, rfl, rfl, rfl⟩
  · exact ⟨.wait, none, s, rfl, rfl, rfl⟩
  · exact ⟨.badChecksum, none, s.clearAcc, rfl, rfl, rfl⟩
  · refine ⟨.frame, _, s.clearAcc, rfl, rfl, ?_⟩
    unfold extract dispatch
    rw [findEntry_congr (s := State.emit o s) (t := s) rfl rfl rfl]
    rfl

/-- A RECEIVE of some bytes that answers RX_WAIT has stored them all. -/
theorem feed_eq_of_wait {s : State} {a : List Byte} (hne : a ≠ [])
    (hw : (feed a s).trace = s.trace ++ [.received .wait none]) :
    s.HasRoomFor a ∧ feed a s = State.emit (.received .wait none) (appendFits a s) := by
  obtain ⟨hr, -, h⟩ | ⟨status, event, u, hs, hu, h⟩ := feed_waits_or_clears hne s
  · exact ⟨hr, h⟩
  · have htrace : (feed a s).trace = s.trace ++ [.received status event] := by
      rcases hu with ⟨-, rfl⟩ | ⟨-, rfl⟩ <;> rw [h] <;> rfl
    rw [hw] at htrace
    simp only [List.append_cancel_left_eq, List.cons.injEq, Output.received.injEq] at htrace
    exact absurd htrace.1.1.symm hs

/-- Settles O18: where all the bytes fit, both ways DECODE the same bytes and differ in the trace alone; where they do
not, both overflow, and the split has stored its first bytes in what is then a cleared accumulator. -/
theorem splittingAReceiveAtAWait : Obligations.SplittingAReceiveAtAWait := by
  intro s t a b h ha hb hexec htrace
  obtain rfl : feed a s = t := by rw [exec_receive] at hexec; exact Host.Outcome.next.inj hexec
  obtain ⟨hr, hwait⟩ := feed_eq_of_wait ha htrace
  have hab : a ++ b ≠ [] := List.append_ne_nil_of_left_ne_nil ha b
  have hlen := appendFits_accLen_toNat h.1 hr
  by_cases hfits : s.accLen.toNat + (a ++ b).length ≤ s.params.capacity
  · obtain ⟨status, event, u, hu, hone, htwo⟩ := runDecode_emit (.received .wait none) (appendFits (a ++ b) s)
    have hsplit : feed b (feed a s) = State.emit (.received status event) (State.emit (.received .wait none) u) := by
      have hrb : (feed a s).HasRoomFor b := by
        rw [List.length_append] at hfits
        rw [hwait]
        exact ⟨hb, by rw [emit_accLen, hlen, emit_params, appendFits_params]; omega⟩
      rw [feed_fits hrb, hwait, ← htwo, ← appendFits_appendFits h.1 hr]
      rfl
    refine ⟨_, _, status, event, exec_receive b _, exec_receive (a ++ b) s, ?_, ?_, ?_⟩
    · rw [feed_fits ⟨hab, hfits⟩, hone, emit_trace, hu, appendFits_trace]
    · rw [hsplit, emit_trace, emit_trace, hu, appendFits_trace, List.append_assoc, List.singleton_append]
    · rw [hsplit, feed_fits ⟨hab, hfits⟩, hone]
      exact ⟨rfl, fun _ _ => rfl⟩
  · have hsplit : feed b (feed a s) = State.raise .bufferOverflow (feed a s) := by
      refine feed_overflow hb ?_
      rw [List.length_append] at hfits
      rw [hwait, emit_accLen, hlen, emit_params, appendFits_params]
      omega
    have hone : feed (a ++ b) s = State.raise .bufferOverflow s := feed_overflow hab (Nat.not_le.1 hfits)
    refine ⟨_, _, .overflow, none, exec_receive b _, exec_receive (a ++ b) s, ?_, ?_, ?_⟩
    · rw [hone]
      rfl
    · rw [hsplit, raise_trace, htrace, List.append_assoc]
      rfl
    · rw [hsplit, hone, hwait]
      exact ⟨rfl, fun i hi => absurd hi (Nat.not_lt_zero i)⟩

end Sys2Proof.Machine
end

section
/-! DISPATCH over an empty table (R156, R212). -/

namespace Sys2Proof.Machine

/-- No entry of an empty table has the id, so every command is unknown (R152). -/
theorem DispatchedAs.eq_none_of_empty {s : State} {id : Half} {payload : List Byte} {event : Option DispatchEvent}
    (hd : DispatchedAs s id payload event) (h0 : s.tblCount = 0) : event = none := by
  obtain ⟨hnone, -⟩ | ⟨i, hi, -⟩ := hd
  · exact hnone
  · rw [h0] at hi
    exact absurd hi (Nat.not_lt_zero i)

/-- Settles O22: what a good frame does in general, with the event an empty table leaves. -/
theorem emptyTableDispatchesNothing : Obligations.EmptyTableDispatchesNothing := by
  intro s bs h hr hg h0
  obtain ⟨t, event, hexec, ht, hdispatched⟩ := receive_good h hr hg
  rw [hdispatched.eq_none_of_empty h0] at ht
  exact ⟨t, hexec, ht⟩

end Sys2Proof.Machine
end

section
/-! SEND's three exits and the transport's answer (R162 to R167), and the fields of the frame it sends (R161). -/

namespace Sys2Proof.Machine

/-! ### SEND, exit by exit -/

theorem exec_send_tooLarge {s : State} {payload : List Byte} (hlarge : s.params.capacity < payload.length + 11)
    (c q : Half) : exec (.send c q payload) s = .next (State.raise .sendTooLarge s) :=
  if_pos hlarge

theorem exec_send_noTransport {s : State} {payload : List Byte} (hfits : payload.length + 11 ≤ s.params.capacity)
    (hunset : s.tpWr = false) (c q : Half) :
    exec (.send c q payload) s = .next (State.raise .transportUnset s) :=
  (if_neg (Nat.not_lt.2 hfits)).trans (if_pos hunset)

theorem exec_send_accepted {s : State} {payload : List Byte} (hfits : payload.length + 11 ≤ s.params.capacity)
    (hset : s.tpWr = true) (c q : Half) :
    exec (.send c q payload) s =
      .next (State.emit (.sent .sent s.answer (some (writeEvent c q payload s))) s.nextAnswer) :=
  (if_neg (Nat.not_lt.2 hfits)).trans (if_neg (by rw [hset]; decide))

/-! ### The transport's answer -/

/-- Giving an answer moves the queue and the counter of free answers, and nothing else (log entry 6). -/
theorem nextAnswer_eq (s : State) :
    s.nextAnswer = { s with transport := s.nextAnswer.transport, draws := s.nextAnswer.draws } := by
  unfold State.nextAnswer
  split <;> rfl

theorem answer_of_queued {s : State} {r : Int} {rest : List Int} (hq : s.transport = r :: rest) : s.answer = r := by
  simp only [State.answer, hq]

theorem nextAnswer_of_queued {s : State} {r : Int} {rest : List Int} (hq : s.transport = r :: rest) :
    s.nextAnswer = { s with transport := rest } := by
  simp only [State.nextAnswer, hq]

theorem nextAnswer_of_unqueued {s : State} (hq : s.transport = []) :
    s.nextAnswer = { s with draws := s.draws + 1 } := by
  simp only [State.nextAnswer, hq]

/-- A free answer has RESULT_W bits from any state: it does not depend on the registers and TBL, so they may be
taken as zero and empty. -/
theorem answer_fits_of_unqueued {s : State} (hq : s.transport = []) : FitsSigned s.params.resultW s.answer :=
  answer_fits (s := { s with uctx := 0, tblBase := 0, tbl := [] })
    ⟨Nat.two_pow_pos _, Nat.two_pow_pos _, by simp, by simp [hq]⟩

/-! ### The statements about SEND and ENCODE -/

/-- Settles O24, from the accepted exit and the two ways the transport's answer is found. -/
theorem sendHandsOverTheFrame : Obligations.SendHandsOverTheFrame := by
  intro s c q payload hfits hset
  refine ⟨_, s.answer, exec_send_accepted hfits hset c q, congrArg (State.emit _) (nextAnswer_eq s), ?_, ?_⟩
  · intro r rest hq
    simp [answer_of_queued hq, nextAnswer_of_queued hq]
  · intro hq
    refine ⟨?_, ?_, answer_fits_of_unqueued hq⟩
    all_goals simp [nextAnswer_of_unqueued hq, hq]

/-- Settles O25, from the two rejecting exits: the error entry of the send side clears nothing (R192). -/
theorem sendRejections : Obligations.SendRejections :=
  fun _ c q _ => ⟨fun hlarge => exec_send_tooLarge hlarge c q,
    fun hfits hunset => exec_send_noTransport hfits hunset c q⟩

/-- Settles O27: the layout is ENCODE's body written out, and the fields are those of a good frame that nothing follows. -/
theorem encodedFieldsReadBack : Obligations.EncodedFieldsReadBack := by
  intro c q payload h
  have hfields := encodeFrame_fields (cmdId := c) (seqType := q) h []
  have hgood := encodeFrame_good (cmdId := c) (seqType := q) h []
  rw [List.append_nil] at hfields hgood
  obtain ⟨hseq, hlength, hid, hpayload⟩ := hfields
  obtain ⟨-, -, -, -, hxor⟩ := hgood
  exact ⟨rfl, encodeFrame_length c q payload, hseq, hlength, hid, hpayload, hxor.symm⟩

/-- Settles O26: every exit gives a response and at most takes the transport's answer. -/
theorem sendChangesNoBlockState : Obligations.SendChangesNoBlockState := by
  intro s c q payload
  obtain ⟨o, h | h⟩ := exec_send_cases c q payload s
  · exact ⟨_, h, rfl⟩
  · refine ⟨_, h, ?_⟩
    rw [emit_trace, nextAnswer_trace]
    exact congrArg (State.emit o) (nextAnswer_eq s)

end Sys2Proof.Machine
end

section
/-! The block with nothing asked of it (R198, R225). -/

namespace Sys2Proof.Machine

/-- Settles O44, from the step's equation for an empty inbox. -/
theorem idleKeepsTheState : Obligations.IdleKeepsTheState :=
  fun _ hidle => step_idle hidle

end Sys2Proof.Machine
end

section
/-! Reset from any state, and a frame on its way from one block to another, whole or with a byte changed (R210, R219, R222). -/

namespace Sys2Proof.Machine

/-! ### Hardware reset (R210) -/

/-- Settles O2: the registers are those of R36, and with ACC_LEN 0 no byte is buffered. -/
theorem hardwareResetFromAnyState : Obligations.HardwareResetFromAnyState :=
  fun _ _ hin => ⟨_, step_reset hin, rfl, rfl⟩

/-! ### From one block to another (R219) -/

/-- A whole encoded frame that meets an empty accumulator with room for it is dispatched with its own fields. -/
theorem receive_encodeFrame {s : State} {payload : List Byte} (h : s.Ready) (h0 : s.accLen = 0)
    (hcap : payload.length + 11 ≤ s.params.capacity) (c q : Half) :
    ∃ t event, exec (.receive (encodeFrame c q payload)) s = .next t ∧
      t = { s with acc := t.acc, accLen := 0, trace := s.trace ++ [.received .frame event] } ∧
      DispatchedAs s c payload event := by
  have hmax : payload.length + 11 ≤ 65535 := hcap.trans h.1.2.1
  have hlen := encodeFrame_length c q payload
  have hr : s.HasRoomFor (encodeFrame c q payload) :=
    hasRoomFor_of_empty h0 (List.ne_nil_of_length_pos (by omega)) (by omega)
  have hgood := encodeFrame_good (cmdId := c) (seqType := q) hmax []
  obtain ⟨-, -, hid, hpayload⟩ := encodeFrame_fields (cmdId := c) (seqType := q) hmax []
  rw [List.append_nil] at hgood hid hpayload
  have hdone := receive_good h hr (by rwa [joined_of_empty h0])
  rwa [joined_of_empty h0, hid, hpayload] at hdone

/-- Settles O30: the write event carries the encoded frame, and what fits the sender fits the receiver. -/
theorem sentFrameIsReceivedByAnotherBlock : Obligations.SentFrameIsReceivedByAnotherBlock := by
  intro a b c q payload hfits hset hb h0 hcap
  obtain ⟨b', event, hreceive, hb', hdispatched⟩ := receive_encodeFrame hb h0 (hfits.trans hcap) c q
  exact ⟨_, a.answer, writeEvent c q payload a, b', event, exec_send_accepted hfits hset c q,
    by rw [emit_trace, nextAnswer_trace], hreceive, hb', hdispatched⟩

/-! ### One changed payload byte (R222) -/

theorem frameBody_set (c q : Half) (payload : List Byte) (k : Nat) (x : Byte) :
    (frameBody c q payload).set (10 + k) x = frameBody c q (payload.set k x) := by
  rw [frameBody_eq, frameBody_eq, List.length_set, Nat.add_comm 10 k]
  rfl

/-- A changed payload byte gives the body of the changed payload, closed by the checksum of the old one. -/
theorem encodeFrame_set (c q : Half) {payload : List Byte} {k : Nat} (hk : k < payload.length) (x : Byte) :
    (encodeFrame c q payload).set (10 + k) x =
      frameBody c q (payload.set k x) ++ [xor8 (frameBody c q payload)] := by
  rw [encodeFrame, List.set_append_left _ _ (by rw [frameBody_length]; omega), frameBody_set]

/-- One changed payload byte changes the exclusive-or the checksum is compared with (R73). -/
theorem xor8_frameBody_set_ne (c q : Half) {payload : List Byte} {k : Nat} (hk : k < payload.length) {x : Byte}
    (hx : payload[k] ≠ x) : xor8 (frameBody c q (payload.set k x)) ≠ xor8 (frameBody c q payload) := by
  rw [← frameBody_set]
  refine xor8_set_ne (by rw [frameBody_length]; omega) ?_
  simpa only [frameBody_eq, Nat.add_comm 10 k, List.getElem_cons_succ] using hx

/-- An encoder's body that any other byte than its checksum closes is rejected by the checksum and by nothing before it. -/
theorem receive_frameBody_badChecksum {s : State} {payload : List Byte} {check : Byte} (h : s.Ready) (h0 : s.accLen = 0)
    (hcap : payload.length + 11 ≤ s.params.capacity) (c q : Half) (hcheck : xor8 (frameBody c q payload) ≠ check) :
    ∃ t, exec (.receive (frameBody c q payload ++ [check])) s = .next t ∧
      t = { s with acc := t.acc, accLen := 0, trace := s.trace ++ [.received .badChecksum none] } := by
  have hmax : payload.length + 11 ≤ 65535 := hcap.trans h.1.2.1
  have hlen : (frameBody c q payload ++ [check]).length = payload.length + 11 := by simp
  have hr : s.HasRoomFor (frameBody c q payload ++ [check]) :=
    hasRoomFor_of_empty h0 (List.ne_nil_of_length_pos (by omega)) (by omega)
  obtain ⟨hm, -, hl, -, -, hxor⟩ := body_fields (cmdId := c) (seqType := q) hmax [check]
  have hsum := body_checksum (cmdId := c) (seqType := q) hmax check []
  have hbad := feed_badChecksum h hr
  rw [joined_of_empty h0, hl, hlen, hxor, hsum] at hbad
  exact ⟨_, by rw [exec_receive, hbad (by omega) hm (by omega) (by omega) hcheck], rfl⟩

/-- Settles O31: the changed frame is the changed payload's body closed by a checksum that is not its own. -/
theorem oneChangedPayloadByteIsDetected : Obligations.OneChangedPayloadByteIsDetected := by
  intro s c q payload k hk x h h0 hcap hx
  rw [encodeFrame_set c q hk]
  exact receive_frameBody_badChecksum h h0 (by rwa [List.length_set]) c q (xor8_frameBody_set_ne c q hk hx)

end Sys2Proof.Machine
end
